-- ==== Sys2Proof/Word.lean ====
section
/-! DEFINITION. The machine's word types: registers, instruction words and the fields of a word. -/

namespace Sys2Proof

/-- The value of a register: 8 bits, unsigned (10_state R20). -/
abbrev Byte := BitVec 8

/-- An instruction word: 16 bits, the spec's hardware rendering of four characters (30_encoding R71). -/
abbrev Word := BitVec 16

/-- One of the four 4-bit parts of a word (30_encoding R71, 00_scope R9). -/
abbrev Field := BitVec 4

end Sys2Proof
end

