-- ==== Sys2Proof/Config.lean ====
section
/-! DEFINITION. What the spec fixes once for the hardware (00_scope R8, R9) and the parameter it leaves to the
loader. `PROG_LEN` and `Prog` (00_scope R10) are supplied by the host and stand in State (log 1); `PC_WIDTH`
changes no behaviour and is an argument of the output ports only (log 6). Nothing here is a free value: no
instruction of this machine has an open result. -/

namespace Sys2Proof.Config

/-- `NUM_REGS` (00_scope R8). -/
def numRegs : Nat := 3

/-- `CARRY_REG`, the index of the carry/borrow register (00_scope R8, 10_state R21). -/
def carryReg : Field := 2#4

/-- The largest value of a register, `2 ^ REG_WIDTH - 1` (00_scope R8). -/
def maxByte : Nat := 255

/-- The largest value of an operand field, a decimal digit (30_encoding R71). -/
def maxDigit : Nat := 9

/-- `IMM_MAX`, the largest immediate (00_scope R9, 30_encoding R76). -/
def immMax : Nat := 99

/-- The number of defined opcodes, values 0 to 10 (00_scope R8). -/
def numOpcodes : Nat := 11

/-- `LOADER_ACCEPTS_LOWERCASE_HEX` at its default, refuse (30_encoding R91, 92 D13; log 15). -/
def loaderAcceptsLowercaseHex : Bool := false

end Sys2Proof.Config
end

