-- ==== Sys2Proof/Syntax.lean ====
section
/-! DEFINITION. The instructions: one constructor per row of spec/opcode_table.json, with every operand field of the
word, the unused ones included (30_encoding R73, R77; log 11). -/

namespace Sys2Proof

/-- An instruction (30_encoding R80). Fields an instruction does not use are kept, so that no bit of an
encoding is lost; its meaning never reads them (40_fetch R104). -/
inductive Instr where
  /-- HALT, format N (41_halt R120). -/
  | halt (k x y : Field)
  /-- LOAD k, nn, format KI (42_load R125). -/
  | load (k : Field) (nn : Nat)
  /-- ADD x, y, format XY, `k` unused (43_add_sub R130). -/
  | add (k x y : Field)
  /-- SUB x, y (43_add_sub R131). -/
  | sub (k x y : Field)
  /-- OR x, y (44_logic R140). -/
  | or (k x y : Field)
  /-- AND x, y (44_logic R141). -/
  | and (k x y : Field)
  /-- XOR x, y (44_logic R142). -/
  | xor (k x y : Field)
  /-- SKIP_EQ_IMM k, nn (45_skip R151). -/
  | skipEqImm (k : Field) (nn : Nat)
  /-- SKIP_NEQ_IMM k, nn (45_skip R152). -/
  | skipNeqImm (k : Field) (nn : Nat)
  /-- SKIP_EQ_REG x, y (45_skip R153). -/
  | skipEqReg (k x y : Field)
  /-- SKIP_NEQ_REG x, y, which skips on equality (45_skip R154). -/
  | skipNeqReg (k x y : Field)
  deriving DecidableEq, Repr

/-- Why a word is no instruction (30_encoding R81, R82). -/
inductive DecodeError where
  /-- An operand field is 10 to 15 (30_encoding R82). -/
  | malformedProgramWord
  /-- The opcode field is 11 to 15 (30_encoding R81). -/
  | unknownOpcode
  deriving DecidableEq, Repr

end Sys2Proof
end

