-- ==== Sys2Proof/WellFormed.lean ====
section
/-! DEFINITION. Which instructions have a word: every operand field a decimal digit, every immediate 0 to 99. -/

namespace Sys2Proof

/-- An operand field holds a decimal digit (30_encoding R71, R82). -/
def Field.isDigit (f : Field) : Bool := decide (f.toNat ≤ Config.maxDigit)

/-- The three operand fields of a format N or XY word are decimal, used or not (30_encoding R77). -/
def Instr.wfFields (k x y : Field) : Bool := Field.isDigit k && Field.isDigit x && Field.isDigit y

/-- The register field is decimal and the immediate is 0 to 99, two decimal digits (30_encoding R76). -/
def Instr.wfImm (k : Field) (nn : Nat) : Bool := Field.isDigit k && decide (nn ≤ Config.immMax)

/-- The instruction has an encoding (30_encoding R73, R82). A register index 3 to 9 is well formed: it is a
legal encoding that faults when executed (30_encoding R83). -/
def Instr.wf : Instr → Bool
  | .halt k x y => wfFields k x y
  | .load k nn => wfImm k nn
  | .add k x y => wfFields k x y
  | .sub k x y => wfFields k x y
  | .or k x y => wfFields k x y
  | .and k x y => wfFields k x y
  | .xor k x y => wfFields k x y
  | .skipEqImm k nn => wfImm k nn
  | .skipNeqImm k nn => wfImm k nn
  | .skipEqReg k x y => wfFields k x y
  | .skipNeqReg k x y => wfFields k x y

end Sys2Proof
end

