-- ==== Sys2Proof/Decode.lean ====
section
/-! DEFINITION. The word's fields, the decoder (total, rejecting by name) and the encoder. -/

namespace Sys2Proof

/-! ### The fields of a word (30_encoding R71, 40_fetch R102) -/

/-- `op = w[15:12]`. -/
def opOf (w : Word) : Field := w.extractLsb' 12 4

/-- `k = w[11:8]`. -/
def kOf (w : Word) : Field := w.extractLsb' 8 4

/-- `x = w[7:4]`. -/
def xOf (w : Word) : Field := w.extractLsb' 4 4

/-- `y = w[3:0]`. -/
def yOf (w : Word) : Field := w.extractLsb' 0 4

/-- The word with these four fields, the first in the most significant bits (30_encoding R71). -/
def mkWord (op k x y : Field) : Word := op ++ k ++ x ++ y

/-- `nn = 10*x + y`, a decimal pair (30_encoding R76; 90_conflicts C1, C5). -/
def immediate (x y : Field) : Nat := 10 * x.toNat + y.toNat

/-- The tens digit of an immediate (30_encoding R92). -/
def tensDigit (nn : Nat) : Field := BitVec.ofNat 4 (nn / 10)

/-- The units digit of an immediate (30_encoding R92). -/
def unitsDigit (nn : Nat) : Field := BitVec.ofNat 4 (nn % 10)

/-- The check of 40_fetch R103 passes: all three operand fields are decimal, used or not. -/
def operandsDecimal (w : Word) : Bool :=
  Field.isDigit (kOf w) && Field.isDigit (xOf w) && Field.isDigit (yOf w)

/-! ### Decoding -/

/-- The opcode map (30_encoding R80, 40_fetch R104): the instruction is selected by `op` alone; `none` is the
default arm, opcodes 11 to 15 (40_fetch R105). -/
def selectInstr (op k x y : Field) : Option Instr :=
  match op.toNat with
  | 0 => some (.halt k x y)
  | 1 => some (.load k (immediate x y))
  | 2 => some (.add k x y)
  | 3 => some (.sub k x y)
  | 4 => some (.or k x y)
  | 5 => some (.and k x y)
  | 6 => some (.xor k x y)
  | 7 => some (.skipEqImm k (immediate x y))
  | 8 => some (.skipNeqImm k (immediate x y))
  | 9 => some (.skipEqReg k x y)
  | 10 => some (.skipNeqReg k x y)
  | _ => none

/-- The instruction a word stands for. The operand check comes first, whatever the opcode
(40_fetch R103, R110; 60_exceptions R178). -/
def decode (w : Word) : Except DecodeError Instr :=
  if operandsDecimal w then
    match selectInstr (opOf w) (kOf w) (xOf w) (yOf w) with
    | some i => .ok i
    | none => .error .unknownOpcode
  else .error .malformedProgramWord

/-! ### Encoding -/

/-- The word of a format KI instruction (30_encoding R73, R92). -/
def mkWordImm (op k : Field) (nn : Nat) : Word := mkWord op k (tensDigit nn) (unitsDigit nn)

/-- The word of an instruction (30_encoding R73, R80). -/
def encode : Instr → Word
  | .halt k x y => mkWord 0 k x y
  | .load k nn => mkWordImm 1 k nn
  | .add k x y => mkWord 2 k x y
  | .sub k x y => mkWord 3 k x y
  | .or k x y => mkWord 4 k x y
  | .and k x y => mkWord 5 k x y
  | .xor k x y => mkWord 6 k x y
  | .skipEqImm k nn => mkWordImm 7 k nn
  | .skipNeqImm k nn => mkWordImm 8 k nn
  | .skipEqReg k x y => mkWord 9 k x y
  | .skipNeqReg k x y => mkWord 10 k x y

/-- The opcode field of each row of the opcode map (30_encoding R80). -/
def Instr.opcode : Instr → Field
  | .halt _ _ _ => 0
  | .load _ _ => 1
  | .add _ _ _ => 2
  | .sub _ _ _ => 3
  | .or _ _ _ => 4
  | .and _ _ _ => 5
  | .xor _ _ _ => 6
  | .skipEqImm _ _ => 7
  | .skipNeqImm _ _ => 8
  | .skipEqReg _ _ _ => 9
  | .skipNeqReg _ _ _ => 10

/-- The instruction with 0 in every unused field, the form the assembler writes (30_encoding R77, R92). -/
def Instr.canonical : Instr → Instr
  | .halt _ _ _ => .halt 0 0 0
  | .load k nn => .load k nn
  | .add _ x y => .add 0 x y
  | .sub _ x y => .sub 0 x y
  | .or _ x y => .or 0 x y
  | .and _ x y => .and 0 x y
  | .xor _ x y => .xor 0 x y
  | .skipEqImm k nn => .skipEqImm k nn
  | .skipNeqImm k nn => .skipNeqImm k nn
  | .skipEqReg _ x y => .skipEqReg 0 x y
  | .skipNeqReg _ x y => .skipNeqReg 0 x y

/-- The 16-bit word whose low `nbits` bits are those of `w` and whose other bits are 0, bit 0 the least
significant. One instruction is one word, so there is no second word (30_encoding R72). -/
def tableWord (nbits w : Nat) : Word := BitVec.ofNat 16 (w % 2 ^ nbits)

/-- What the decoder reads from an instruction whose bits are `w`. -/
def decodeTableWord (nbits w : Nat) : Option Instr :=
  match decode (tableWord nbits w) with
  | .ok i => some i
  | .error _ => none

end Sys2Proof
end

