-- ==== Sys2Proof/Machine/State.lean ====
section
/-! DEFINITION. The machine's state as plain data, its value after reset, the named updates of its fields, and the
reasons the model itself stops. -/

namespace Sys2Proof.Machine

/-- The run state (10_state R32). -/
inductive RunState where
  /-- No instruction executed yet. -/
  | init
  /-- Normal fetch and execute cycling. -/
  | running
  /-- Terminal: the program asked to stop. -/
  | halted
  deriving DecidableEq, Repr

/-- The cause of a fatal error (60_exceptions R170). -/
inductive Cause where
  /-- A used register index is not 0, 1 or 2 (60_exceptions R171). -/
  | invalidRegister
  /-- LOAD with an immediate above 255 (60_exceptions R172); no word can raise it. -/
  | immediateOverflow
  /-- Opcode 11 to 15 (60_exceptions R173). -/
  | unknownOpcode
  /-- An operand field 10 to 15 (60_exceptions R174). -/
  | malformedProgramWord
  deriving DecidableEq, Repr

/-- The program memory: (word index, word) pairs with strictly rising indices. A cell is one whole word, the
spec's addressable unit (20_memory R50, R55; log 5). -/
abbrev Memory := List (Nat × Word)

/-- The indices of a memory rise strictly: the canonical form, so that equal memories are equal lists. An unlisted
index reads as no value (log 4), so no entry can equal what an unlisted index reads as. -/
def Memory.wf : Memory → Bool
  | [] => true
  | [_] => true
  | c :: d :: m => decide (c.1 < d.1) && Memory.wf (d :: m)

/-- The state: the tuple of 10_state R44, and the program the host supplies (10_state R38; log 1). -/
structure State where
  /-- R[0] (10_state R20). -/
  r0 : Byte
  /-- R[1] (10_state R20). -/
  r1 : Byte
  /-- R[2], also the carry/borrow register (10_state R21). -/
  r2 : Byte
  /-- The program counter, a word index, unbounded (10_state R26, 00_scope R10; log 6). -/
  pc : Nat
  /-- The instruction register; `none` is the "uninitialized" marker (10_state R31). -/
  ir : Option Word
  /-- The run state (10_state R32). -/
  run : RunState
  /-- The sticky fault latch; `none` is the spec's None (10_state R33). -/
  fault : Option Cause
  /-- `L`, the input `prog_len` (10_state R38). -/
  progLen : Nat
  /-- The program memory, `Prog` (20_memory R50). -/
  prog : Memory
  deriving DecidableEq, Repr

/-- The machine after reset (10_state R42, R44), with no program loaded: the spec gives the program no reset value,
the host loads it before reset is released (70_reset R202; log 2). -/
def State.reset : State where
  r0 := 0
  r1 := 0
  r2 := 0
  pc := 0
  ir := none
  run := .init
  fault := none
  progLen := 0
  prog := []

/-! ### Named updates, one per field -/

/-- Write R[0]. -/
def State.withR0 (s : State) (v : Byte) : State := { s with r0 := v }
/-- Write R[1]. -/
def State.withR1 (s : State) (v : Byte) : State := { s with r1 := v }
/-- Write R[2]. -/
def State.withR2 (s : State) (v : Byte) : State := { s with r2 := v }
/-- Write the program counter. -/
def State.withPc (s : State) (n : Nat) : State := { s with pc := n }
/-- Write the instruction register. -/
def State.withIr (s : State) (w : Option Word) : State := { s with ir := w }
/-- Write the run state. -/
def State.withRun (s : State) (r : RunState) : State := { s with run := r }
/-- Write the fault latch. -/
def State.withFault (s : State) (f : Option Cause) : State := { s with fault := f }
/-- Replace the program and its length; the host's load, no step does it (20_memory R53). -/
def State.withProgram (s : State) (n : Nat) (m : Memory) : State := { s with progLen := n, prog := m }

/-! ### Stops of the model -/

/-- Why the model stops with a fault. The hardware's own fatal errors are NOT here: they are latched in
`State.fault` by a step that answers a next state (60_exceptions R176). -/
inductive Fault where
  /-- FETCH read an index below `L` that the host never loaded; raised by `fetch`. The host breaks its duty of
  70_reset R202 and the spec says nothing of such a run. Safe: the model stops where it claims nothing (log 4). -/
  | unloadedWord (index : Nat)
  deriving DecidableEq, Repr

/-- Why the model gives a step no meaning. -/
inductive Refusal where
  /-- An arm of `exec` with no meaning yet; raised by `exec` only. Safe. No arm uses it. -/
  | notModelled (mnemonic : String)
  /-- `L = 0`: "A configuration with `L = 0` is refused" (70_reset R202, 92 D9); raised by `fetch`. Safe (log 3). -/
  | emptyProgram
  /-- EXECUTE with no fetched word: the spec never does it (40_fetch R108, 92 D7) and gives it no meaning
  (93 U18); raised by `execute`, never by `step`. Safe (log 12). -/
  | executeWithoutFetch
  deriving DecidableEq, Repr

/-- What a step, or a part of one, answers. -/
abbrev Result := Host.Outcome State Fault Refusal

end Sys2Proof.Machine
end

