-- ==== Sys2Proof/Machine/Ops.lean ====
section
/-! DEFINITION. The operations every instruction shares: program memory, the register file, the fault sequence, the
skip, FETCH, reset, and when a step is enabled. -/

namespace Sys2Proof.Machine

/-! ### Program memory -/

/-- `MemRead(a, 1)` (00_scope R12, 20_memory R58): the word at an index, if one was loaded there. Reading has no
side effect. -/
def Memory.read : Memory → Nat → Option Word
  | [], _ => none
  | (b, w) :: m, a => if a = b then some w else Memory.read m a

/-- The host's write of one word before the run; the core has none (00_scope R12, 20_memory R54). -/
def Memory.write : Memory → Nat → Word → Memory
  | [], a, v => [(a, v)]
  | (b, w) :: m, a, v =>
    if a < b then (a, v) :: (b, w) :: m
    else if a = b then (a, v) :: m
    else (b, w) :: Memory.write m a v

/-- A program laid out from index `n` on (30_encoding R90). -/
def Memory.ofWords : Nat → List Word → Memory
  | _, [] => []
  | n, w :: ws => (n, w) :: Memory.ofWords (n + 1) ws

/-! ### The register file (10_state R22) -/

/-- `get(index)`: `none` is the InvalidRegister failure (10_state R22, 00_scope R12). -/
def readReg (i : Field) (s : State) : Option Byte :=
  match i.toNat with
  | 0 => some s.r0
  | 1 => some s.r1
  | 2 => some s.r2
  | _ => none

/-- `set(index, value)`: `none` is the InvalidRegister failure; the value is stored as it is, with no masking
(10_state R22). -/
def writeReg (i : Field) (v : Byte) (s : State) : Option State :=
  match i.toNat with
  | 0 => some (s.withR0 v)
  | 1 => some (s.withR1 v)
  | 2 => some (s.withR2 v)
  | _ => none

/-! ### Taking a fatal error (60_exceptions R176) -/

/-- `FAULT(E)`: the latch takes the cause and nothing else changes (60_exceptions R176). No pc or status is saved,
there is no mode and no handler, so control goes nowhere; the core then ignores every step request
(70_reset R211). There is no return from it (60_exceptions R179): only `coreReset` clears the latch. -/
def raise (c : Cause) (s : State) : Result := .next (s.withFault (some c))

/-- A checked read `R[i]` within an instruction: go on with the value, or raise InvalidRegister (00_scope R12). -/
def withReg (i : Field) (s : State) (go : Byte → Result) : Result :=
  match readReg i s with
  | some v => go v
  | none => raise .invalidRegister s

/-- A checked write `R[i] <- v` within an instruction: go on in the state written, or raise InvalidRegister
(00_scope R12). -/
def setReg (i : Field) (v : Byte) (s : State) (go : State → Result) : Result :=
  match writeReg i v s with
  | some t => go t
  | none => raise .invalidRegister s

/-! ### The skip action -/

/-- `pc <- pc + 1`, with no wrap and no comparison with `L` (45_skip R150). -/
def skip (s : State) : State := s.withPc (s.pc + 1)

/-- The end of every skip instruction: skip if the condition holds, else change nothing (45_skip R150). -/
def skipIf (c : Bool) (s : State) : Result := .next (if c then skip s else s)

/-! ### FETCH -/

/-- The index FETCH reads: the lazy wrap is a reset to 0, never `pc mod L` (40_fetch R100, 10_state R29). -/
def fetchIndex (s : State) : Nat := if s.progLen ≤ s.pc then 0 else s.pc

/-- The state FETCH leaves when it reads `w` (40_fetch R100, R101): the word in `ir`, `pc` one above the index read,
and Init becomes Running. -/
def fetched (s : State) (w : Word) : State :=
  ((s.withIr (some w)).withPc (fetchIndex s + 1)).withRun (if s.run = .init then .running else s.run)

/-- FETCH (40_fetch R100). It raises no error of the hardware; it stops only where the host missed its launch duty
(70_reset R202; log 3, log 4). -/
def fetch (s : State) : Result :=
  if s.progLen = 0 then .refused .emptyProgram
  else match s.prog.read (fetchIndex s) with
    | some w => .next (fetched s w)
    | none => .fault (.unloadedWord (fetchIndex s))

/-! ### When there is a step, and reset -/

/-- STEP is enabled exactly when `run != Halted` and `fault == None` (40_fetch R108). -/
def stepEnabled (s : State) : Bool := decide (s.run ≠ .halted) && decide (s.fault = none)

/-- The reset input: every piece of core state to its reset value, from any state (70_reset R200, 10_state R37).
The program memory is the host's and is kept (10_state R43; log 14). -/
def coreReset (s : State) : State := State.reset.withProgram s.progLen s.prog

end Sys2Proof.Machine
end

