-- ==== Sys2Proof/Machine/Flags.lean ====
section
/-! DEFINITION. The arithmetic of ADD and SUB and the only status result of the machine, the carry or borrow in
R[2] (10_state R30). Operands are converted to integers, computed exactly, and narrowed at the end (00_scope R11). -/

namespace Sys2Proof.Machine

/-- `sum = a + b`, 0 to 510 (43_add_sub R130). -/
def addSum (a b : Byte) : Nat := a.toNat + b.toNat

/-- `sum & 0xFF` (43_add_sub R130). -/
def addResult (a b : Byte) : Byte := BitVec.ofNat 8 (addSum a b &&& 0xFF)

/-- The carry: 1 if `sum > 255`, else 0 (43_add_sub R130). -/
def addCarry (a b : Byte) : Byte := if Config.maxByte < addSum a b then 1 else 0

/-- `diff = a - b`, -255 to 255 (43_add_sub R131). -/
def subDiff (a b : Byte) : Int := (a.toNat : Int) - (b.toNat : Int)

/-- `256 + diff` when `diff` is negative, else `diff` (43_add_sub R131). -/
def subResult (a b : Byte) : Byte :=
  if subDiff a b < 0 then BitVec.ofInt 8 (256 + subDiff a b) else BitVec.ofInt 8 (subDiff a b)

/-- The borrow: 1 if `diff < 0`, else 0 (43_add_sub R131). -/
def subBorrow (a b : Byte) : Byte := if subDiff a b < 0 then 1 else 0

/-- The two writes of ADD and SUB in their order: the result to `R[x]` first, the carry or borrow to `R[2]` last, so
that it wins when `x = 2` (43_add_sub R130 to R133, 90_conflicts C3). -/
def writeResultAndCarry (x : Field) (result carry : Byte) (s : State) : Result :=
  setReg x result s fun t => setReg Config.carryReg carry t .next

end Sys2Proof.Machine
end

