-- ==== Sys2Proof/Machine/Operands.lean ====
section
/-! DEFINITION. The operand forms of 30_encoding R73, as the shapes instructions are built from. Format N has no
operands and needs no shape. -/

namespace Sys2Proof.Machine

/-- Format XY, sources: `a = R[x]`, then `b = R[y]`, both before any write (40_fetch R106, 60_exceptions R178). -/
def withPair (x y : Field) (s : State) (go : Byte → Byte → Result) : Result :=
  withReg x s fun a => withReg y s fun b => go a b

/-- Format XY with an arithmetic result and a carry or borrow (43_add_sub R130, R131). -/
def arithmetic (result carry : Byte → Byte → Byte) (x y : Field) (s : State) : Result :=
  withPair x y s fun a b => writeResultAndCarry x (result a b) (carry a b) s

/-- Format XY with a plain result and no flag (44_logic R140 to R143). -/
def logic (f : Byte → Byte → Byte) (x y : Field) (s : State) : Result :=
  withPair x y s fun a b => setReg x (f a b) s .next

/-- Format KI as a comparison: the register against the immediate, as integers (30_encoding R76). -/
def skipImm (cond : Nat → Nat → Bool) (k : Field) (nn : Nat) (s : State) : Result :=
  withReg k s fun a => skipIf (cond a.toNat nn) s

/-- Format XY as a comparison of two registers (45_skip R153, R154). -/
def skipReg (cond : Byte → Byte → Bool) (x y : Field) (s : State) : Result :=
  withPair x y s fun a b => skipIf (cond a b) s

end Sys2Proof.Machine
end

