-- ==== Sys2Proof/Machine/Arith.lean ====
section
/-! DEFINITION. ADD and SUB (43_add_sub.md). -/

namespace Sys2Proof.Machine

/-- ADD x, y (43_add_sub R130). -/
def execAdd (x y : Field) (s : State) : Result := arithmetic addResult addCarry x y s

/-- SUB x, y (43_add_sub R131). -/
def execSub (x y : Field) (s : State) : Result := arithmetic subResult subBorrow x y s

end Sys2Proof.Machine
end

