-- ==== Sys2Proof/Machine/LoadImm.lean ====
section
/-! DEFINITION. LOAD, the load-immediate instruction. It reads no memory (42_load R128). -/

namespace Sys2Proof.Machine

/-- LOAD k, nn (42_load R125). The range check stands before the write and its index check (42_load R126); no
word makes it fire, and it is kept as the spec keeps it (93 U2; log 11). -/
def execLoad (k : Field) (nn : Nat) (s : State) : Result :=
  if Config.maxByte < nn then raise .immediateOverflow s
  else setReg k (BitVec.ofNat 8 nn) s .next

end Sys2Proof.Machine
end

