-- ==== Sys2Proof/Machine/Logic.lean ====
section
/-! DEFINITION. OR, AND and XOR (44_logic.md). -/

namespace Sys2Proof.Machine

/-- OR x, y (44_logic R140). -/
def execOr (x y : Field) (s : State) : Result := logic (fun a b => a ||| b) x y s

/-- AND x, y (44_logic R141). -/
def execAnd (x y : Field) (s : State) : Result := logic (fun a b => a &&& b) x y s

/-- XOR x, y (44_logic R142). -/
def execXor (x y : Field) (s : State) : Result := logic (fun a b => a ^^^ b) x y s

end Sys2Proof.Machine
end

