-- ==== Sys2Proof/Machine/Skip.lean ====
section
/-! DEFINITION. The four conditional skips, the machine's only control transfer (45_skip R155). -/

namespace Sys2Proof.Machine

/-- SKIP_EQ_IMM k, nn (45_skip R151). -/
def execSkipEqImm (k : Field) (nn : Nat) (s : State) : Result := skipImm (fun a n => decide (a = n)) k nn s

/-- SKIP_NEQ_IMM k, nn (45_skip R152). -/
def execSkipNeqImm (k : Field) (nn : Nat) (s : State) : Result := skipImm (fun a n => decide (a ≠ n)) k nn s

/-- SKIP_EQ_REG x, y (45_skip R153). -/
def execSkipEqReg (x y : Field) (s : State) : Result := skipReg (fun a b => decide (a = b)) x y s

/-- SKIP_NEQ_REG x, y: skips on EQUALITY, despite its name (45_skip R154, 90_conflicts C4; log 10). -/
def execSkipNeqReg (x y : Field) (s : State) : Result := skipReg (fun a b => decide (a = b)) x y s

end Sys2Proof.Machine
end

