-- ==== Sys2Proof/Machine/System.lean ====
section
/-! DEFINITION. HALT, the only system instruction (41_halt R122). -/

namespace Sys2Proof.Machine

/-- HALT: `run <- Halted` (41_halt R120). -/
def execHalt (s : State) : Result := .next (s.withRun .halted)

end Sys2Proof.Machine
end

