-- ==== Sys2Proof/Machine/Dispatch.lean ====
section
/-! DEFINITION. DISPATCH (40_fetch R104): one arm per instruction, each given only the fields its format uses. -/

namespace Sys2Proof.Machine

def exec (i : Instr) (s : State) : Host.Outcome State Fault Refusal :=
  match i with
  | .halt _ _ _ => Sys2Proof.Machine.execHalt s
  | .load k nn => Sys2Proof.Machine.execLoad k nn s
  | .add _ x y => Sys2Proof.Machine.execAdd x y s
  | .sub _ x y => Sys2Proof.Machine.execSub x y s
  | .or _ x y => Sys2Proof.Machine.execOr x y s
  | .and _ x y => Sys2Proof.Machine.execAnd x y s
  | .xor _ x y => Sys2Proof.Machine.execXor x y s
  | .skipEqImm k nn => Sys2Proof.Machine.execSkipEqImm k nn s
  | .skipNeqImm k nn => Sys2Proof.Machine.execSkipNeqImm k nn s
  | .skipEqReg _ x y => Sys2Proof.Machine.execSkipEqReg x y s
  | .skipNeqReg _ x y => Sys2Proof.Machine.execSkipNeqReg x y s

end Sys2Proof.Machine
end

