-- ==== Sys2Proof/Machine/Execute.lean ====
section
/-! DEFINITION. EXECUTE (40_fetch R106): decode, operand check and dispatch of the word FETCH left in `ir`. -/

namespace Sys2Proof.Machine

/-- The cause a word that is no instruction raises (40_fetch R103, R105). -/
def decodeCause : DecodeError → Cause
  | .malformedProgramWord => .malformedProgramWord
  | .unknownOpcode => .unknownOpcode

/-- EXECUTE on a given word (40_fetch R102 to R106, R109). -/
def executeWord (w : Word) (s : State) : Result :=
  match decode w with
  | .ok i => exec i s
  | .error e => raise (decodeCause e) s

/-- EXECUTE (40_fetch R106): the word in `ir`. Before the first FETCH there is none, and the spec gives EXECUTE no
meaning then (92 D7, 93 U18; log 12). -/
def execute (s : State) : Result :=
  match s.ir with
  | some w => executeWord w s
  | none => .refused .executeWithoutFetch

/-- FETCH, then EXECUTE: one step of an enabled core (40_fetch R108). -/
def fetchExecute (s : State) : Result :=
  match fetch s with
  | .next t => execute t
  | stop => stop

end Sys2Proof.Machine
end

