-- ==== Sys2Proof/Machine/Step.lean ====
section
/-! DEFINITION. One step request, and the placing of one instruction where the next step fetches it. -/

namespace Sys2Proof.Machine

/-- One `step` request (10_state R37, 40_fetch R108): FETCH and EXECUTE when the step is enabled; in a terminal state
the request is ignored and no state changes (70_reset R211; log 7). -/
def step (s : State) : Host.Outcome State Fault Refusal :=
  if stepEnabled s then fetchExecute s else .next s

/-- `s` with one instruction stored where `step` fetches next. It stands for the host's load (70_reset R202; log 2):
the program grows to one word if there is none, and a core that has stopped is started again, which no step does
(log 18). -/
def State.withFetchWord (s : State) (nbits w : Nat) : State :=
  let t := s.withProgram (max 1 s.progLen) (s.prog.write (fetchIndex s) (tableWord nbits w))
  if stepEnabled s then t else (t.withRun .running).withFault none

end Sys2Proof.Machine
end

