-- ==== Sys2Proof/Machine/Loader.lean ====
section
/-! DEFINITION. The host's side of a launch: the text form of words (30_encoding R70, R71), the program file and its
loader (R90, R91), and the loaded machine (70_reset R202). The core never calls any of it. -/

namespace Sys2Proof.Machine

/-! ### Characters and words -/

/-- An operand character, `0` to `9` (30_encoding R70). -/
def operandChar (c : Char) : Option Field :=
  if '0'.toNat ≤ c.toNat ∧ c.toNat ≤ '9'.toNat then some (BitVec.ofNat 4 (c.toNat - '0'.toNat)) else none

/-- An opcode character: `0` to `9`, `A` to `F`, and `a` to `f` only under `LOADER_ACCEPTS_LOWERCASE_HEX`
(30_encoding R70, R91; log 15). -/
def opcodeChar (lower : Bool) (c : Char) : Option Field :=
  match operandChar c with
  | some f => some f
  | none =>
    if 'A'.toNat ≤ c.toNat ∧ c.toNat ≤ 'F'.toNat then some (BitVec.ofNat 4 (c.toNat - 'A'.toNat + 10))
    else if lower = true ∧ 'a'.toNat ≤ c.toNat ∧ c.toNat ≤ 'f'.toNat then
      some (BitVec.ofNat 4 (c.toNat - 'a'.toNat + 10))
    else none

/-- The word of four characters `c0 c1 c2 c3` (30_encoding R70, R71). -/
def parseWord (lower : Bool) (c0 c1 c2 c3 : Char) : Option Word :=
  match opcodeChar lower c0, operandChar c1, operandChar c2, operandChar c3 with
  | some op, some k, some x, some y => some (mkWord op k x y)
  | _, _, _, _ => none

/-- The character of a field value, upper case (30_encoding R70). -/
def fieldChar (f : Field) : Char :=
  if f.toNat ≤ Config.maxDigit then Char.ofNat ('0'.toNat + f.toNat) else Char.ofNat ('A'.toNat + (f.toNat - 10))

/-- The four characters of a word; its text form when its operand fields are decimal (30_encoding R71). -/
def wordText (w : Word) : List Char := [fieldChar (opOf w), fieldChar (kOf w), fieldChar (xOf w), fieldChar (yOf w)]

/-! ### The program file -/

/-- The chunks of four of a program file, each as a word (30_encoding R90). -/
def parseChunks (lower : Bool) : List Char → Option (List Word)
  | [] => some []
  | c0 :: c1 :: c2 :: c3 :: rest =>
    match parseWord lower c0 c1 c2 c3, parseChunks lower rest with
    | some w, some ws => some (w :: ws)
    | _, _ => none
  | _ => none

/-- The loader: the program of a file, or the refusal of the whole file with MalformedProgramWord when it is empty,
its length is no multiple of 4 or a character is not allowed (30_encoding R91, 92 D24). -/
def loadText (lower : Bool) (text : List Char) : Except Cause (List Word) :=
  match parseChunks lower text with
  | some (w :: ws) => .ok (w :: ws)
  | _ => .error .malformedProgramWord

/-- The loader at the parameter's default (30_encoding R91, 92 D13). -/
def loadProgram (text : List Char) : Except Cause (List Word) := loadText Config.loaderAcceptsLowercaseHex text

/-! ### The launch -/

/-- The host's load: fill the program memory and set `prog_len` (70_reset R202, R215). -/
def State.load (s : State) (ws : List Word) : State := s.withProgram ws.length (Memory.ofWords 0 ws)

/-- The launch state of a program: loaded, then reset released (70_reset R202, R203, R217). -/
def launch (ws : List Word) : State := State.reset.load ws

end Sys2Proof.Machine
end

