-- ==== Sys2Proof/Machine/Assembler.lean ====
section
/-! DEFINITION. The assembler's spelling of instructions (30_encoding R92, 92 D16): the mnemonic, a space, then the
operands separated by commas. Outside the core. -/

namespace Sys2Proof.Machine

/-! ### Reading a line -/

/-- The characters up to the first `sep`, and those after it. -/
def splitFirst (sep : Char) : List Char → List Char × List Char
  | [] => ([], [])
  | c :: cs => if c = sep then ([], cs) else let (a, b) := splitFirst sep cs; (c :: a, b)

/-- The parts of a list between the separators. -/
def splitAll (sep : Char) : List Char → List (List Char)
  | [] => [[]]
  | c :: cs =>
    if c = sep then [] :: splitAll sep cs
    else match splitAll sep cs with
      | p :: ps => (c :: p) :: ps
      | [] => [[c]]

/-- Decimal digits onto an accumulator; `none` at any other character. -/
def digitsValue (acc : Nat) : List Char → Option Nat
  | [] => some acc
  | c :: cs => match operandChar c with
    | some d => digitsValue (10 * acc + d.toNat) cs
    | none => none

/-- A decimal operand, spaces dropped (log 16). -/
def operandValue (cs : List Char) : Option Nat :=
  match cs.filter (fun c => decide (c ≠ ' ')) with
  | [] => none
  | ds => digitsValue 0 ds

/-- The operands of a line; `none` if one is no number. -/
def operandValues (cs : List Char) : Option (List Nat) :=
  if cs.all (fun c => decide (c = ' ')) then some [] else (splitAll ',' cs).mapM operandValue

/-- A register operand: one decimal digit, so that every encodable index can be written (log 16). -/
def asmReg (n : Nat) : Option Field := if n ≤ Config.maxDigit then some (BitVec.ofNat 4 n) else none

/-- An instruction of format KI from its operands `k`, `nn` (30_encoding R92). -/
def asmImm (mk : Field → Nat → Instr) : List Nat → Option Instr
  | [k, nn] => if nn ≤ Config.immMax then (asmReg k).map (fun f => mk f nn) else none
  | _ => none

/-- An instruction of format XY from its operands `x`, `y`; the unused `k` is 0 (30_encoding R92). -/
def asmPair (mk : Field → Field → Field → Instr) : List Nat → Option Instr
  | [x, y] => match asmReg x, asmReg y with
    | some f, some g => some (mk 0 f g)
    | _, _ => none
  | _ => none

/-- The instruction of a mnemonic of 30_encoding R80 and its operands. -/
def asmInstr (mnemonic : List Char) (ops : List Nat) : Option Instr :=
  if mnemonic = ['H', 'A', 'L', 'T'] then (if ops = [] then some (.halt 0 0 0) else none)
  else if mnemonic = ['L', 'O', 'A', 'D'] then asmImm .load ops
  else if mnemonic = ['A', 'D', 'D'] then asmPair .add ops
  else if mnemonic = ['S', 'U', 'B'] then asmPair .sub ops
  else if mnemonic = ['O', 'R'] then asmPair .or ops
  else if mnemonic = ['A', 'N', 'D'] then asmPair .and ops
  else if mnemonic = ['X', 'O', 'R'] then asmPair .xor ops
  else if mnemonic = ['S', 'K', 'I', 'P', '_', 'E', 'Q', '_', 'I', 'M', 'M'] then asmImm .skipEqImm ops
  else if mnemonic = ['S', 'K', 'I', 'P', '_', 'N', 'E', 'Q', '_', 'I', 'M', 'M'] then asmImm .skipNeqImm ops
  else if mnemonic = ['S', 'K', 'I', 'P', '_', 'E', 'Q', '_', 'R', 'E', 'G'] then asmPair .skipEqReg ops
  else if mnemonic = ['S', 'K', 'I', 'P', '_', 'N', 'E', 'Q', '_', 'R', 'E', 'G'] then asmPair .skipNeqReg ops
  else none

/-- One line of assembler as an instruction (30_encoding R92). -/
def assembleLine (line : List Char) : Option Instr :=
  match operandValues (splitFirst ' ' line).2 with
  | some ops => asmInstr (splitFirst ' ' line).1 ops
  | none => none

/-! ### Writing a line -/

/-- The mnemonic of an instruction (30_encoding R80). -/
def mnemonicChars : Instr → List Char
  | .halt _ _ _ => ['H', 'A', 'L', 'T']
  | .load _ _ => ['L', 'O', 'A', 'D']
  | .add _ _ _ => ['A', 'D', 'D']
  | .sub _ _ _ => ['S', 'U', 'B']
  | .or _ _ _ => ['O', 'R']
  | .and _ _ _ => ['A', 'N', 'D']
  | .xor _ _ _ => ['X', 'O', 'R']
  | .skipEqImm _ _ => ['S', 'K', 'I', 'P', '_', 'E', 'Q', '_', 'I', 'M', 'M']
  | .skipNeqImm _ _ => ['S', 'K', 'I', 'P', '_', 'N', 'E', 'Q', '_', 'I', 'M', 'M']
  | .skipEqReg _ _ _ => ['S', 'K', 'I', 'P', '_', 'E', 'Q', '_', 'R', 'E', 'G']
  | .skipNeqReg _ _ _ => ['S', 'K', 'I', 'P', '_', 'N', 'E', 'Q', '_', 'R', 'E', 'G']

/-- A number 0 to 99 in decimal, with no leading zero (30_encoding R92: `LOAD 1, 7`). -/
def immChars (nn : Nat) : List Char :=
  if nn ≤ Config.maxDigit then [fieldChar (unitsDigit nn)] else [fieldChar (tensDigit nn), fieldChar (unitsDigit nn)]

/-- The operand text of a format KI line. -/
def immLine (k : Field) (nn : Nat) : List Char := ' ' :: fieldChar k :: ',' :: ' ' :: immChars nn

/-- The operand text of a format XY line. -/
def pairLine (x y : Field) : List Char := [' ', fieldChar x, ',', ' ', fieldChar y]

/-- The operand text of an instruction (30_encoding R80, the operand column). -/
def operandChars : Instr → List Char
  | .halt _ _ _ => []
  | .load k nn => immLine k nn
  | .add _ x y => pairLine x y
  | .sub _ x y => pairLine x y
  | .or _ x y => pairLine x y
  | .and _ x y => pairLine x y
  | .xor _ x y => pairLine x y
  | .skipEqImm k nn => immLine k nn
  | .skipNeqImm k nn => immLine k nn
  | .skipEqReg _ x y => pairLine x y
  | .skipNeqReg _ x y => pairLine x y

/-- The assembler line of an instruction (30_encoding R92); unused fields are not written. -/
def asmLine (i : Instr) : List Char := mnemonicChars i ++ operandChars i

end Sys2Proof.Machine
end

