-- ==== Sys2Proof/Machine/Ports.lean ====
section
/-! DEFINITION. The block's interfaces as information (10_state R37 to R41): the two control inputs, the observation
and termination outputs, the snapshot. There are no clocks (70_reset R214; log 19). -/

namespace Sys2Proof.Machine

/-! ### Control inputs (10_state R37) -/

/-- What the driver asserts between two states. Both low is the driver's delay (70_reset R215). -/
structure Inputs where
  /-- Reset, active high. -/
  rst : Bool
  /-- The request for one step. -/
  step : Bool
  deriving DecidableEq, Repr

/-- The block under its inputs (10_state R37): reset while `rst` is asserted (log 14), else a step if one is
requested, else no change. -/
def tick (i : Inputs) (s : State) : Result :=
  if i.rst then .next (coreReset s) else if i.step then step s else .next s

/-! ### Codes of the outputs -/

/-- The 2-bit encoding of `run` (10_state R32); 3 never occurs. -/
def runCode : RunState → BitVec 2
  | .init => 0
  | .running => 1
  | .halted => 2

/-- The 3-bit `fault_cause` (60_exceptions R170); 5 to 7 never appear. -/
def causeCode : Option Cause → BitVec 3
  | none => 0
  | some .invalidRegister => 1
  | some .immediateOverflow => 2
  | some .unknownOpcode => 3
  | some .malformedProgramWord => 4

/-! ### Outputs -/

/-- The display's view: the instruction register, or its marker, and the registers (10_state R39). -/
structure Snapshot where
  /-- The current instruction word, `none` for "uninitialized". -/
  ir : Option Word
  /-- R[0]. -/
  r0 : Byte
  /-- R[1]. -/
  r1 : Byte
  /-- R[2]. -/
  r2 : Byte
  deriving DecidableEq, Repr

/-- What the display sees: a plain copy of state (10_state R39). -/
def snapshot (s : State) : Snapshot := { ir := s.ir, r0 := s.r0, r1 := s.r1, r2 := s.r2 }

/-- The output ports with a program counter of `pcWidth` bits (10_state R38 to R40). -/
structure Outputs (pcWidth : Nat) where
  /-- `r0`. -/
  r0 : Byte
  /-- `r1`. -/
  r1 : Byte
  /-- `r2`. -/
  r2 : Byte
  /-- `ir_valid`. -/
  irValid : Bool
  /-- `ir_word`; `none` while it is meaningless (10_state R31; log 17). -/
  irWord : Option Word
  /-- `pc_out`. -/
  pcOut : BitVec pcWidth
  /-- `prog_addr`, the index of the word to read, in `0 .. L-1` (10_state R38). DESIGN CHOICE: in a terminal state,
  where no word is to be read, it shows the index a further FETCH would read (log 20). -/
  progAddr : BitVec pcWidth
  /-- `halted`. -/
  halted : Bool
  /-- `fault_valid`. -/
  faultValid : Bool
  /-- `fault_cause`. -/
  faultCause : BitVec 3
  deriving DecidableEq, Repr

/-- The outputs: plain copies of state; reading them has no effect (10_state R39, R40). DESIGN CHOICE: `progAddr` goes on
showing `fetchIndex` in a terminal state, and with `L = 0`, where 10_state R38 leaves it open (log 20). -/
def outputs (pcWidth : Nat) (s : State) : Outputs pcWidth where
  r0 := s.r0
  r1 := s.r1
  r2 := s.r2
  irValid := s.ir.isSome
  irWord := s.ir
  pcOut := BitVec.ofNat pcWidth s.pc
  progAddr := BitVec.ofNat pcWidth (fetchIndex s)
  halted := decide (s.run = .halted)
  faultValid := s.fault.isSome
  faultCause := causeCode s.fault

/-- `snap_valid` after the inputs act: it follows reset and every execute that completes without a fault, HALT
included (10_state R41, 92 D20; log 13). -/
def snapStrobe (i : Inputs) (s : State) : Bool :=
  if i.rst then true
  else i.step && stepEnabled s &&
    match step s with
    | .next t => decide (t.fault = none)
    | _ => false

end Sys2Proof.Machine
end

