-- ==== Sys2Proof/Safety.lean ====
section
/-! DEFINITION. The terms claims about the machine are stated in: the ends of a run, the launch premises, the
invariant of the reachable states, the spec's tables of causes, written registers and taken skips, and the frames. -/

namespace Sys2Proof.Machine

/-! ### Ends of a run and launch premises -/

/-- HALTED: the normal end of a run (70_reset R216). -/
def haltedEnd (s : State) : Bool := decide (s.run = .halted) && decide (s.fault = none)

/-- FAULTED: the error end of a run (70_reset R216). -/
def faultedEnd (s : State) : Bool := decide (s.run = .running) && s.fault.isSome

/-- The host met its launch duty: `L >= 1`, and every word below `L` is loaded (70_reset R202, R217 P1). -/
def State.Loaded (s : State) : Prop := 1 ≤ s.progLen ∧ ∀ a, a < s.progLen → (s.prog.read a).isSome

/-- Every word of the program has decimal operand fields: the launch premise P2 (70_reset R217). -/
def State.WordsDecimal (s : State) : Prop := ∀ a w, s.prog.read a = some w → operandsDecimal w = true

/-- The word the next FETCH reads, if it can read one (40_fetch R100). -/
def nextWord (s : State) : Option Word := if s.progLen = 0 then none else s.prog.read (fetchIndex s)

/-! ### Tables of the spec, over words -/

/-- The register indices a word's instruction uses (30_encoding R73, R74; 10_state R24). -/
def usedRegs (w : Word) : List Field :=
  match (opOf w).toNat with
  | 0 => []
  | 1 | 7 | 8 => [kOf w]
  | _ => [xOf w, yOf w]

/-- The register indices a word's instruction writes (10_state R24, the last column). -/
def writtenRegs (w : Word) : List Field :=
  match (opOf w).toNat with
  | 1 => [kOf w]
  | 2 | 3 => [xOf w, Config.carryReg]
  | 4 | 5 | 6 => [xOf w]
  | _ => []

/-- The cause a word raises when it is executed, by the table of 60_exceptions R170 in the order of R178. No word
raises ImmediateOverflow (R172). -/
def wordFault (w : Word) : Option Cause :=
  if operandsDecimal w = false then some .malformedProgramWord
  else if Config.numOpcodes ≤ (opOf w).toNat then some .unknownOpcode
  else if (usedRegs w).any (fun i => decide (Config.numRegs ≤ i.toNat)) then some .invalidRegister
  else none

/-- The code on `fault_cause` is the one 60_exceptions R170 lists for the latch; 5 to 7 do not appear. -/
def CodeAsTabled (latch : Option Cause) (code : BitVec 3) : Prop :=
  (latch = none → code = 0) ∧ (latch = some .invalidRegister → code = 1) ∧
  (latch = some .immediateOverflow → code = 2) ∧ (latch = some .unknownOpcode → code = 3) ∧
  (latch = some .malformedProgramWord → code = 4) ∧ code.toNat ≤ 4

/-- An assembler line stands for a word (30_encoding R92). -/
def AssemblesTo (line : List Char) (w : Word) : Prop := (assembleLine line).map encode = some w

/-- The value of a register as the mathematical integer it is (00_scope R11). -/
def regNat (i : Field) (s : State) : Option Nat := (readReg i s).map BitVec.toNat

/-- Whether a word that raises nothing skips, by the conditions of 45_skip R151 to R154; opcode 10 skips on
equality (R154). -/
def skipTaken (w : Word) (s : State) : Bool :=
  match (opOf w).toNat with
  | 7 => decide (regNat (kOf w) s = some (10 * (xOf w).toNat + (yOf w).toNat))
  | 8 => decide (regNat (kOf w) s ≠ some (10 * (xOf w).toNat + (yOf w).toNat))
  | 9 | 10 => decide (regNat (xOf w) s = regNat (yOf w) s)
  | _ => false

/-! ### The invariant of the reachable states -/

/-- What 10_state R27 and R44 say of every reachable state, and what the model's memory adds. -/
structure State.Inv (s : State) : Prop where
  /-- 10_state R27. -/
  pc_le : s.pc ≤ s.progLen + 1
  /-- 10_state R27, R44: once a word was fetched, `pc` is above its index. -/
  pc_pos : s.run ≠ .init → 1 ≤ s.pc
  /-- 10_state R44: Init exactly while nothing was fetched. -/
  init_iff : s.run = .init ↔ s.ir = none
  /-- 10_state R42, R44: Init is the reset state. -/
  init_reset : s.run = .init → s.r0 = 0 ∧ s.r1 = 0 ∧ s.r2 = 0 ∧ s.pc = 0 ∧ s.fault = none
  /-- 10_state R44, 60_exceptions R176: a faulted core is Running and `ir` holds the word that raises the cause. -/
  faulted : ∀ c, s.fault = some c → s.run = .running ∧ s.pc ≤ s.progLen ∧ ∃ w, s.ir = some w ∧ wordFault w = some c
  /-- 10_state R44, 41_halt R120: a halted core has no fault and `ir` holds a HALT word. -/
  halted : s.run = .halted → s.fault = none ∧ s.pc ≤ s.progLen ∧
    ∃ w, s.ir = some w ∧ operandsDecimal w = true ∧ opOf w = 0
  /-- The program memory is in its canonical form. -/
  prog_wf : s.prog.wf = true
  /-- 20_memory R59: nothing exists at or past `L`. -/
  prog_below : ∀ c ∈ s.prog, c.1 < s.progLen

/-! ### Frames -/

/-- Everything but the registers is as before. -/
def KeepsControl (s t : State) : Prop :=
  t.pc = s.pc ∧ t.ir = s.ir ∧ t.run = s.run ∧ t.fault = s.fault ∧ t.progLen = s.progLen ∧ t.prog = s.prog

/-- Every register is as before (10_state R25). -/
def KeepsRegs (s t : State) : Prop := t.r0 = s.r0 ∧ t.r1 = s.r1 ∧ t.r2 = s.r2

/-- Every register but those listed is as before. -/
def KeepsRegsBut (ws : List Field) (s t : State) : Prop := ∀ i, i ∉ ws → readReg i t = readReg i s

/-! ### Shapes of the instruction rules -/

/-- Format N or XY: with opcode `op`, every word with decimal fields decodes to `mk k x y` (30_encoding R73, R80). -/
def EncodesFields (op : Field) (mk : Field → Field → Field → Instr) : Prop :=
  ∀ k x y, Field.isDigit k = true → Field.isDigit x = true → Field.isDigit y = true →
    decode (mkWord op k x y) = .ok (mk k x y)

/-- Format KI: with opcode `op`, every word with decimal fields decodes to `mk k (10*x + y)` (30_encoding R73, R76). -/
def EncodesImm (op : Field) (mk : Field → Nat → Instr) : Prop :=
  ∀ k x y, Field.isDigit k = true → Field.isDigit x = true → Field.isDigit y = true →
    decode (mkWord op k x y) = .ok (mk k (10 * x.toNat + y.toNat))

/-- The instruction raises InvalidRegister, and changes nothing but the latch, when `x` or `y` is not 0, 1 or 2. -/
def PairRaises (mk : Field → Field → Field → Instr) : Prop :=
  ∀ k x y s, 2 < x.toNat ∨ 2 < y.toNat → exec (mk k x y) s = .next { s with fault := some .invalidRegister }

/-- The rule of ADD or SUB: `R[x]` takes `res a b` unless `x = 2`, `R[2]` takes `flag a b`, nothing else changes. -/
def ArithRule (mk : Field → Field → Field → Instr) (res flag : Nat → Nat → Nat) : Prop :=
  ∀ k x y s a b, regNat x s = some a → regNat y s = some b →
    ∃ t, exec (mk k x y) s = .next t ∧ regNat 2 t = some (flag a b) ∧ (x ≠ 2 → regNat x t = some (res a b)) ∧
      KeepsRegsBut [x, 2] s t ∧ KeepsControl s t

/-- The rule of OR, AND or XOR: `R[x]` takes `f a b`, nothing else changes, `R[2]` neither unless `x = 2`. -/
def LogicRule (mk : Field → Field → Field → Instr) (f : Byte → Byte → Byte) : Prop :=
  ∀ k x y s a b, readReg x s = some a → readReg y s = some b →
    ∃ t, exec (mk k x y) s = .next t ∧ readReg x t = some (f a b) ∧ KeepsRegsBut [x] s t ∧ KeepsControl s t

/-- The rule of a skip against an immediate: one more on `pc` if `cond a nn`, nothing else; InvalidRegister when `k` is
not 0, 1 or 2. -/
def SkipImmRule (mk : Field → Nat → Instr) (cond : Nat → Nat → Prop) : Prop :=
  (∀ k nn s a, regNat k s = some a → cond a nn → exec (mk k nn) s = .next { s with pc := s.pc + 1 }) ∧
  (∀ k nn s a, regNat k s = some a → ¬ cond a nn → exec (mk k nn) s = .next s) ∧
  (∀ k nn s, 2 < k.toNat → exec (mk k nn) s = .next { s with fault := some .invalidRegister })

/-- The rule of a skip against a register: one more on `pc` if the two are equal, nothing else; InvalidRegister as
`PairRaises`. -/
def SkipRegRule (mk : Field → Field → Field → Instr) : Prop :=
  (∀ k x y s a b, regNat x s = some a → regNat y s = some b → a = b →
    exec (mk k x y) s = .next { s with pc := s.pc + 1 }) ∧
  (∀ k x y s a b, regNat x s = some a → regNat y s = some b → a ≠ b → exec (mk k x y) s = .next s) ∧
  PairRaises mk

/-- The state FETCH leaves on reading `w`, field by field (40_fetch R100, R109's `S1`). -/
def afterFetch (s : State) (w : Word) : State :=
  { s with
    pc := (if s.progLen ≤ s.pc then 0 else s.pc) + 1
    ir := some w
    run := if s.run = .init then .running else s.run }

end Sys2Proof.Machine
end

