-- ==== Sys2Proof/Certificates/Slice0/Obligations.lean ====
section
/-! DEFINITION. The statements for the provers. Each docstring names the rule of spec/ it formalises. -/

open Sys2Proof Sys2Proof.Machine

/-! ### Encoding -/

/-- 30_encoding R94: the encodings the source gives. -/
def Obligations.SourceEncodingsRead : Prop :=
  decode 0x7007#16 = .ok (.skipEqImm 0 7) ∧ kOf 0x7007#16 = 0 ∧ xOf 0x7007#16 = 0 ∧ yOf 0x7007#16 = 7 ∧
  decode 0x0000#16 = .ok (.halt 0 0 0) ∧ immediate 0 7 = 7 ∧ immediate 1 2 = 12 ∧
  opcodeChar false 'B' = some 11 ∧
  (∀ w, opOf w = 11 → operandsDecimal w = true → decode w = .error .unknownOpcode) ∧
  opcodeChar false 'A' = some 10 ∧ decode 0xA012#16 = .ok (.skipNeqReg 0 1 2) ∧ decode 0x1099#16 = .ok (.load 0 99)

/-- 30_encoding R80, R81: the opcode map, with the two defaults a decoder adds. The 16-bit fields are the spec's own
decision D1, the check for decimal fields its decision D2. -/
def Obligations.OpcodeMapDecides : Prop :=
  EncodesFields 0 .halt ∧ EncodesImm 1 .load ∧ EncodesFields 2 .add ∧ EncodesFields 3 .sub ∧ EncodesFields 4 .or ∧
  EncodesFields 5 .and ∧ EncodesFields 6 .xor ∧ EncodesImm 7 .skipEqImm ∧ EncodesImm 8 .skipNeqImm ∧
  EncodesFields 9 .skipEqReg ∧ EncodesFields 10 .skipNeqReg ∧
  (∀ w, operandsDecimal w = false → decode w = .error .malformedProgramWord) ∧
  (∀ w, operandsDecimal w = true → 11 ≤ (opOf w).toNat → decode w = .error .unknownOpcode)

/-- Decode and encode agree on every well-formed instruction, every operand at every value (30_encoding R71 to R80). -/
def Obligations.DecodeOfEncode : Prop := ∀ i : Instr, i.wf = true → decode (encode i) = .ok i

/-- The other direction: a word that decodes is the word of the instruction it decodes to, and that instruction is
well formed, so no two words decode to one instruction (30_encoding R71 to R83). -/
def Obligations.EncodeOfDecode : Prop := ∀ w i, decode w = .ok i → i.wf = true ∧ encode i = w

/-- 30_encoding R71 (the spec's own decision D1): the fields' places, and the one-to-one correspondence of
text words and words with decimal operand fields. -/
def Obligations.TextFormOneToOne : Prop :=
  (∀ w : Word, w.toNat = 4096 * (opOf w).toNat + 256 * (kOf w).toNat + 16 * (xOf w).toNat + (yOf w).toNat) ∧
  (∀ w, operandsDecimal w = true → ∃ c0 c1 c2 c3, wordText w = [c0, c1, c2, c3] ∧
    parseWord false c0 c1 c2 c3 = some w) ∧
  (∀ c0 c1 c2 c3 w, parseWord false c0 c1 c2 c3 = some w → operandsDecimal w = true ∧
    wordText w = [c0, c1, c2, c3] ∧ opcodeChar false c0 = some (opOf w) ∧ operandChar c1 = some (kOf w) ∧
    operandChar c2 = some (xOf w) ∧ operandChar c3 = some (yOf w))

/-- 30_encoding R90: the file of a program's words, chunk after chunk, loads as that program, and `L` is the number of
chunks; with the rule's example. That a launch puts the words at indices 0 on is log 2. -/
def Obligations.ProgramFileLoads : Prop :=
  (∀ lower ws, ws ≠ [] → (∀ w ∈ ws, operandsDecimal w = true) →
    loadText lower (ws.flatMap wordText) = .ok ws ∧ (ws.flatMap wordText).length = 4 * (launch ws).progLen) ∧
  (∀ (ws : List Word) i, (launch ws).prog.read i = ws[i]?) ∧
  loadText false ['1', '0', '0', '5', '1', '1', '0', '3', '2', '0', '0', '1', '0', '0', '0', '0'] =
    .ok [0x1005#16, 0x1103#16, 0x2001#16, 0x0000#16]

/-- 30_encoding R91 (the spec's own decisions D13, D24): the loader refuses a file exactly when it is
empty, its length is no multiple of 4, an operand character is no decimal digit or an opcode character is none of 0-9, A-F (or a-f where the loader's parameter lets
it). -/
def Obligations.LoaderRefusesExactly : Prop :=
  ∀ (lower : Bool) (text : List Char),
    loadText lower text = .error .malformedProgramWord ↔
      (text = [] ∨ text.length % 4 ≠ 0 ∨
        ∃ i c, text[i]? = some c ∧
          ((i % 4 ≠ 0 ∧ c ∉ ['0', '1', '2', '3', '4', '5', '6', '7', '8', '9']) ∨
           (i % 4 = 0 ∧ c ∉ ['0', '1', '2', '3', '4', '5', '6', '7', '8', '9', 'A', 'B', 'C', 'D', 'E', 'F'] ∧
            (lower = true → c ∉ ['a', 'b', 'c', 'd', 'e', 'f']))))

/-- 30_encoding R92 (the spec's own decision D16): the line of a well-formed instruction assembles to it, with 0 in the
unused fields; and a line of each of the eleven mnemonics of R80 assembles to its word, the rule's five lines and the
source's spelling `ADD 0,1`, `SUB 0,1` among them. Where the spec is silent the spelling is the model's (log 16). -/
def Obligations.AssemblerRoundTrip : Prop :=
  (∀ i : Instr, i.wf = true → assembleLine (asmLine i) = some i.canonical) ∧
  AssemblesTo ['H', 'A', 'L', 'T'] 0x0000#16 ∧
  AssemblesTo ['L', 'O', 'A', 'D', ' ', '1', ',', ' ', '7'] 0x1107#16 ∧
  AssemblesTo ['A', 'D', 'D', ' ', '0', ',', ' ', '1'] 0x2001#16 ∧
  AssemblesTo ['S', 'U', 'B', ' ', '0', ',', ' ', '1'] 0x3001#16 ∧
  AssemblesTo ['O', 'R', ' ', '0', ',', ' ', '1'] 0x4001#16 ∧
  AssemblesTo ['A', 'N', 'D', ' ', '0', ',', ' ', '1'] 0x5001#16 ∧
  AssemblesTo ['X', 'O', 'R', ' ', '0', ',', ' ', '1'] 0x6001#16 ∧
  AssemblesTo ['S', 'K', 'I', 'P', '_', 'E', 'Q', '_', 'I', 'M', 'M', ' ', '0', ',', ' ', '7'] 0x7007#16 ∧
  AssemblesTo ['S', 'K', 'I', 'P', '_', 'N', 'E', 'Q', '_', 'I', 'M', 'M', ' ', '0', ',', ' ', '1', '2'] 0x8012#16 ∧
  AssemblesTo ['S', 'K', 'I', 'P', '_', 'E', 'Q', '_', 'R', 'E', 'G', ' ', '0', ',', ' ', '1'] 0x9001#16 ∧
  AssemblesTo ['S', 'K', 'I', 'P', '_', 'N', 'E', 'Q', '_', 'R', 'E', 'G', ' ', '0', ',', ' ', '1'] 0xA001#16 ∧
  AssemblesTo ['A', 'D', 'D', ' ', '0', ',', '1'] 0x2001#16 ∧
  AssemblesTo ['S', 'U', 'B', ' ', '0', ',', '1'] 0x3001#16

/-! ### Fetch, decode checks, step -/

/-- 40_fetch R100: FETCH with its lazy wrap, the word read, the increment and Init to Running. It raises nothing and
the index it reads is inside the program. -/
def Obligations.FetchFollowsRule : Prop :=
  ∀ s w, 1 ≤ s.progLen → s.prog.read (if s.progLen ≤ s.pc then 0 else s.pc) = some w →
    fetch s = .next (afterFetch s w) ∧ (afterFetch s w).pc - 1 < s.progLen ∧
    1 ≤ (afterFetch s w).pc ∧ (afterFetch s w).pc ≤ s.progLen

/-- A step runs the decoded instruction: where the word at the fetch index decodes to `i`, one step is `exec i` in the
state FETCH leaves (40_fetch R104, R106, R108). -/
def Obligations.StepRunsDecodedInstruction : Prop :=
  ∀ s w i, stepEnabled s = true → 1 ≤ s.progLen → s.prog.read (if s.progLen ≤ s.pc then 0 else s.pc) = some w →
    decode w = .ok i → i.wf = true ∧ step s = exec i (afterFetch s w)

/-- 40_fetch R109, which the spec marks as derived: the whole step as one function of the state and the program. -/
def Obligations.StepIsTheWholeFunction : Prop :=
  ∀ s w, stepEnabled s = true → 1 ≤ s.progLen → s.prog.read (if s.progLen ≤ s.pc then 0 else s.pc) = some w →
    (operandsDecimal w = false →
      step s = .next { afterFetch s w with fault := some .malformedProgramWord }) ∧
    (operandsDecimal w = true → 11 ≤ (opOf w).toNat →
      step s = .next { afterFetch s w with fault := some .unknownOpcode }) ∧
    (operandsDecimal w = true → (opOf w).toNat ≤ 10 →
      ∃ i t, decode w = .ok i ∧ i.opcode = opOf w ∧ step s = exec i (afterFetch s w) ∧ step s = .next t ∧
        ∀ c, t.fault = some c → t = { afterFetch s w with fault := some c })

/-- 40_fetch R103 (the spec's own decision D2): the operand check comes before dispatch, for every word and every opcode. -/
def Obligations.OperandCheckComesFirst : Prop :=
  ∀ s w, stepEnabled s = true → nextWord s = some w →
    9 < (kOf w).toNat ∨ 9 < (xOf w).toNat ∨ 9 < (yOf w).toNat →
    step s = .next { afterFetch s w with fault := some .malformedProgramWord }

/-- 40_fetch R105: the default arm, with its worked example. -/
def Obligations.DefaultArmRaisesUnknownOpcode : Prop :=
  (∀ s w, stepEnabled s = true → nextWord s = some w → operandsDecimal w = true → 11 ≤ (opOf w).toNat →
    step s = .next { afterFetch s w with fault := some .unknownOpcode }) ∧
  (∀ ws, step (launch (0xB000#16 :: ws)) =
    .next { launch (0xB000#16 :: ws) with
      pc := 1, ir := some 0xB000#16, run := .running, fault := some .unknownOpcode })

/-- Every enabled step with a word to read answers a next state, and the cause it latches is the one the spec's tables
give that word (60_exceptions R170, R171, R173, R174, R178): which words fault does not depend on the registers. -/
def Obligations.StepFaultsExactlyAsTabled : Prop :=
  ∀ s w, stepEnabled s = true → nextWord s = some w → ∃ t, step s = .next t ∧ t.fault = wordFault w

/-- 60_exceptions R178 (the spec's own decisions D10, D17): the priority of causes, with the rule's four words. -/
def Obligations.FaultPriority : Prop :=
  (∀ s w c t, stepEnabled s = true → nextWord s = some w → step s = .next t → t.fault = some c →
    (c = .malformedProgramWord ↔ operandsDecimal w = false) ∧
    (c = .unknownOpcode ↔ operandsDecimal w = true ∧ 11 ≤ (opOf w).toNat) ∧
    (c = .invalidRegister ↔ operandsDecimal w = true ∧ (opOf w).toNat ≤ 10) ∧ c ≠ .immediateOverflow) ∧
  wordFault 0xBF00#16 = some .malformedProgramWord ∧ wordFault 0xB300#16 = some .unknownOpcode ∧
  wordFault 0x2F03#16 = some .malformedProgramWord ∧ wordFault 0x2033#16 = some .invalidRegister

/-- 60_exceptions R176 (the spec's own decisions D6, D11): the state a fault leaves, and what the outputs then say, the
code by the table of R170. -/
def Obligations.FaultLeavesOnlyTheLatch : Prop :=
  ∀ s t c, stepEnabled s = true → step s = .next t → t.fault = some c →
    KeepsRegs s t ∧ t.pc = fetchIndex s + 1 ∧ t.ir = nextWord s ∧ t.ir.isSome = true ∧ t.run = .running ∧
    t.progLen = s.progLen ∧ t.prog = s.prog ∧ stepEnabled t = false ∧
    snapStrobe { rst := false, step := true } s = false ∧
    (∀ n, (outputs n t).faultValid = true ∧ (outputs n t).faultCause = causeCode (some c) ∧
      CodeAsTabled (some c) (outputs n t).faultCause ∧ (outputs n t).halted = false)

/-- 70_reset R211 (the spec's own decision D8): in a terminal state a step request is ignored, however often it is
made. That the model's step answers the same state there is log 7. -/
def Obligations.TerminalStatesFrozen : Prop :=
  ∀ s n, s.run = .halted ∨ s.fault ≠ none → step s = .next s ∧ Sys2Proof.core.run n s = .next s

/-- The first fetch leaves Init (40_fetch R101); only HALT leads to Halted and nothing leaves Halted (10_state R32).
That a word with op 0 and a non-decimal operand field ends Running is the spec's own decision D2 (log 9). -/
def Obligations.RunStateTransitions : Prop :=
  (∀ s w, stepEnabled s = true → nextWord s = some w → ∃ t, step s = .next t ∧
    t.run = if operandsDecimal w = true ∧ opOf w = 0 then .halted else .running) ∧
  (∀ s t, s.run = .halted → step s = .next t → t.run = .halted)

/-- 10_state R28: how each instruction moves `pc`. -/
def Obligations.PcMovesAsListed : Prop :=
  ∀ s w, stepEnabled s = true → nextWord s = some w → ∃ t, step s = .next t ∧
    t.pc = (if s.progLen ≤ s.pc then 0 else s.pc) + 1 + (if wordFault w = none ∧ skipTaken w s = true then 1 else 0)

/-- 10_state R24: a step changes only the registers the table lists for the word it runs. -/
def Obligations.RegistersChangeOnlyAsTabled : Prop :=
  ∀ s w, stepEnabled s = true → nextWord s = some w → ∃ t, step s = .next t ∧ KeepsRegsBut (writtenRegs w) s t

/-- 20_memory R53: no step changes the program or its length, and every index reads as before. -/
def Obligations.ProgramIsImmutable : Prop :=
  ∀ s t, step s = .next t → t.progLen = s.progLen ∧ t.prog = s.prog ∧ ∀ a, t.prog.read a = s.prog.read a

/-- 20_memory R52, R58 and 45_skip R150: a step depends on no program word but the one it fetches, so a skipped word
has no effect whatever its bits are. -/
def Obligations.OnlyTheFetchedWordMatters : Prop :=
  ∀ s t m, step s = .next t → m.read (fetchIndex s) = s.prog.read (fetchIndex s) →
    step { s with prog := m } = .next { t with prog := m }

/-- 30_encoding R77 (the spec's own decision D3): two instructions that differ only in unused fields do the same. -/
def Obligations.UnusedFieldsHaveNoEffect : Prop :=
  ∀ (i j : Instr) (s : State), i.canonical = j.canonical → exec i s = exec j s

/-- 70_reset R209: a taken skip in the last word leaves `pc = L + 1`, and the next FETCH reads word 0; one in the word
before leaves `pc = L`, and the next FETCH reads word 0 as well. -/
def Obligations.SkipAtTheEndIsAbsorbed : Prop :=
  ∀ s w, stepEnabled s = true → nextWord s = some w → wordFault w = none → skipTaken w s = true →
    (fetchIndex s + 1 = s.progLen → ∃ t, step s = .next t ∧ t.pc = s.progLen + 1 ∧ fetchIndex t = 0) ∧
    (fetchIndex s + 2 = s.progLen → ∃ t, step s = .next t ∧ t.pc = s.progLen ∧ fetchIndex t = 0)

/-! ### The instructions -/

/-- 41_halt R120: HALT, with what the block shows after it and the rule's worked example. R120 says that no further
step follows; that a further request, and so any run, answers the same state is log 7 and the spec's own decision D8
(70_reset R211). The check for decimal fields is its decision D2. -/
def Obligations.HaltRule : Prop :=
  EncodesFields 0 .halt ∧
  (∀ w, opOf w = 0 → operandsDecimal w = false → decode w = .error .malformedProgramWord) ∧
  (∀ k x y s, exec (.halt k x y) s = .next { s with run := .halted }) ∧
  (∀ s w, stepEnabled s = true → nextWord s = some w → operandsDecimal w = true → opOf w = 0 →
    step s = .next { afterFetch s w with run := .halted } ∧
    snapStrobe { rst := false, step := true } s = true ∧
    (∀ n, (outputs n { afterFetch s w with run := .halted }).halted = true ∧
      Sys2Proof.core.run n { afterFetch s w with run := .halted } = .next { afterFetch s w with run := .halted })) ∧
  (∀ s, s.r0 = 8 → s.r1 = 3 → s.r2 = 0 → s.pc = 3 → s.run = .running → s.fault = none → s.progLen = 4 →
    s.prog.read 3 = some 0x0000#16 →
    step s = .next { s with pc := 4, ir := some 0x0000#16, run := .halted })

/-- 42_load R125: LOAD k, nn, its two exceptions and the rule's worked example. -/
def Obligations.LoadRule : Prop :=
  EncodesImm 1 .load ∧
  (∀ k nn s, nn ≤ 255 → k.toNat ≤ 2 → ∃ t, exec (.load k nn) s = .next t ∧ regNat k t = some nn ∧
    KeepsRegsBut [k] s t ∧ KeepsControl s t) ∧
  (∀ k nn s, 255 < nn → exec (.load k nn) s = .next { s with fault := some .immediateOverflow }) ∧
  (∀ k nn s, nn ≤ 255 → 2 < k.toNat → exec (.load k nn) s = .next { s with fault := some .invalidRegister }) ∧
  (∀ s, s.r0 = 0 → s.r1 = 0 → s.r2 = 0 → executeWord 0x1107#16 s = .next { s with r1 := 7 })

/-- 43_add_sub R130: ADD x, y: result, carry, order of the writes, exceptions, and the rule's worked example. -/
def Obligations.AddRule : Prop :=
  EncodesFields 2 .add ∧
  ArithRule .add (fun a b => if 255 < a + b then a + b - 256 else a + b) (fun a b => if 255 < a + b then 1 else 0) ∧
  PairRaises .add ∧
  (∀ s, s.r0 = 250 → s.r1 = 10 → executeWord 0x2001#16 s = .next { s with r0 := 4, r2 := 1 })

/-- 43_add_sub R131: SUB x, y: result, borrow, order of the writes, exceptions, and the rule's worked example. -/
def Obligations.SubRule : Prop :=
  EncodesFields 3 .sub ∧
  ArithRule .sub (fun a b => if a < b then 256 + a - b else a - b) (fun a b => if a < b then 1 else 0) ∧
  PairRaises .sub ∧
  (∀ s, s.r0 = 5 → s.r1 = 10 → executeWord 0x3001#16 s = .next { s with r0 := 251, r2 := 1 })

/-- 43_add_sub R132: ADD when operands and the carry register coincide, row by row. -/
def Obligations.AddAliasing : Prop :=
  ∀ k s,
    (∀ x y a b, x ≠ y → x ≠ 2 → y ≠ 2 → regNat x s = some a → regNat y s = some b →
      ∃ t, exec (.add k x y) s = .next t ∧ regNat x t = some ((a + b) % 256) ∧
        regNat 2 t = some (if 255 < a + b then 1 else 0)) ∧
    (∀ x a c, x ≠ 2 → regNat x s = some a → regNat 2 s = some c →
      ∃ t, exec (.add k x 2) s = .next t ∧ regNat x t = some ((a + c) % 256) ∧
        regNat 2 t = some (if 255 < a + c then 1 else 0)) ∧
    (∀ y b c, y ≠ 2 → regNat y s = some b → regNat 2 s = some c →
      ∃ t, exec (.add k 2 y) s = .next t ∧ regNat 2 t = some (if 255 < c + b then 1 else 0)) ∧
    (∀ x a, x ≠ 2 → regNat x s = some a →
      ∃ t, exec (.add k x x) s = .next t ∧ regNat x t = some ((2 * a) % 256) ∧
        regNat 2 t = some (if 128 ≤ a then 1 else 0)) ∧
    (∀ c, regNat 2 s = some c →
      ∃ t, exec (.add k 2 2) s = .next t ∧ regNat 2 t = some (if 128 ≤ c then 1 else 0))

/-- 43_add_sub R133: SUB when operands and the borrow register coincide, row by row. -/
def Obligations.SubAliasing : Prop :=
  ∀ k s,
    (∀ x y a b, x ≠ y → x ≠ 2 → y ≠ 2 → regNat x s = some a → regNat y s = some b →
      ∃ t, exec (.sub k x y) s = .next t ∧ regNat x t = some ((a + 256 - b) % 256) ∧
        regNat 2 t = some (if a < b then 1 else 0)) ∧
    (∀ x a c, x ≠ 2 → regNat x s = some a → regNat 2 s = some c →
      ∃ t, exec (.sub k x 2) s = .next t ∧ regNat x t = some ((a + 256 - c) % 256) ∧
        regNat 2 t = some (if a < c then 1 else 0)) ∧
    (∀ y b c, y ≠ 2 → regNat y s = some b → regNat 2 s = some c →
      ∃ t, exec (.sub k 2 y) s = .next t ∧ regNat 2 t = some (if c < b then 1 else 0)) ∧
    (∀ x, x ≠ 2 → x.toNat ≤ 2 →
      ∃ t, exec (.sub k x x) s = .next t ∧ regNat x t = some 0 ∧ regNat 2 t = some 0) ∧
    (∃ t, exec (.sub k 2 2) s = .next t ∧ regNat 2 t = some 0)

/-- 43_add_sub R134, which the spec marks as derived: the laws of 8-bit unsigned addition and
subtraction, over the integers. -/
def Obligations.IntegerLaws : Prop :=
  ∀ a b : Byte,
    (addResult a b).toNat = (a.toNat + b.toNat) % 256 ∧ (addCarry a b).toNat = (a.toNat + b.toNat) / 256 ∧
    ((subResult a b).toNat : Int) = ((a.toNat : Int) - b.toNat) % 256 ∧
    (subBorrow a b = 1 ↔ a.toNat < b.toNat) ∧ (subBorrow a b = 0 ↔ b.toNat ≤ a.toNat)

/-- 44_logic R140, R141, R142: OR, AND and XOR, their exceptions, and the rules' worked examples. -/
def Obligations.LogicRules : Prop :=
  EncodesFields 4 .or ∧ LogicRule .or (fun a b => a ||| b) ∧ PairRaises .or ∧
  EncodesFields 5 .and ∧ LogicRule .and (fun a b => a &&& b) ∧ PairRaises .and ∧
  EncodesFields 6 .xor ∧ LogicRule .xor (fun a b => a ^^^ b) ∧ PairRaises .xor ∧
  (∀ s, s.r0 = 240 → s.r1 = 60 →
    executeWord 0x4001#16 s = .next { s with r0 := 252 } ∧
    executeWord 0x5001#16 s = .next { s with r0 := 48 } ∧
    executeWord 0x6001#16 s = .next { s with r0 := 204 })

/-- 44_logic R140 to R142, the corner cases: equal indices, a zero operand, an all-ones operand. -/
def Obligations.LogicCornerCases : Prop :=
  (∀ k x s, x.toNat ≤ 2 → exec (.or k x x) s = .next s ∧ exec (.and k x x) s = .next s ∧
    ∃ t, exec (.xor k x x) s = .next t ∧ readReg x t = some 0 ∧ KeepsRegsBut [x] s t ∧ KeepsControl s t) ∧
  (∀ k x y s, x.toNat ≤ 2 → readReg y s = some 0 →
    exec (.or k x y) s = .next s ∧ exec (.xor k x y) s = .next s ∧
    ∃ t, exec (.and k x y) s = .next t ∧ readReg x t = some 0) ∧
  (∀ k x y s a, readReg x s = some a → readReg y s = some 255 →
    exec (.and k x y) s = .next s ∧
    (∃ t, exec (.or k x y) s = .next t ∧ readReg x t = some 255) ∧
    ∃ t, exec (.xor k x y) s = .next t ∧ regNat x t = some (255 - a.toNat))

/-- 45_skip R151, R152: the skips against an immediate, with the rules' worked examples. -/
def Obligations.SkipImmediateRules : Prop :=
  EncodesImm 7 .skipEqImm ∧ SkipImmRule .skipEqImm (fun a nn => a = nn) ∧
  EncodesImm 8 .skipNeqImm ∧ SkipImmRule .skipNeqImm (fun a nn => a ≠ nn) ∧
  (∀ s, (s.r0 = 7 → executeWord 0x7007#16 s = .next { s with pc := s.pc + 1 }) ∧
    (s.r0 = 6 → executeWord 0x7007#16 s = .next s) ∧
    (s.r0 = 2 → executeWord 0x8003#16 s = .next { s with pc := s.pc + 1 }) ∧
    (s.r0 = 3 → executeWord 0x8003#16 s = .next s))

/-- 45_skip R153, R154: the skips against a register; both skip on equality; with the rules' worked examples. -/
def Obligations.SkipRegisterRules : Prop :=
  EncodesFields 9 .skipEqReg ∧ SkipRegRule .skipEqReg ∧ EncodesFields 10 .skipNeqReg ∧ SkipRegRule .skipNeqReg ∧
  (∀ k x y s, exec (.skipNeqReg k x y) s = exec (.skipEqReg k x y) s) ∧
  (∀ s, s.r0 = 5 →
    (s.r1 = 5 → executeWord 0x9001#16 s = .next { s with pc := s.pc + 1 } ∧
      executeWord 0xA001#16 s = .next { s with pc := s.pc + 1 }) ∧
    (s.r1 = 6 → executeWord 0x9001#16 s = .next s ∧ executeWord 0xA001#16 s = .next s))

/-! ### State, reset, outputs -/

/-- 10_state R22: the register file's contract. -/
def Obligations.RegisterFileContract : Prop :=
  (∀ i s, readReg i s = none ↔ i ∉ [0#4, 1#4, 2#4]) ∧
  (∀ i v s, writeReg i v s = none ↔ i ∉ [0#4, 1#4, 2#4]) ∧
  (∀ i v s t, writeReg i v s = some t →
    readReg i t = some v ∧ (∀ j, j ≠ i → readReg j t = readReg j s) ∧ KeepsControl s t) ∧
  (∀ i s go, 3 ≤ i.toNat → withReg i s go = .next { s with fault := some .invalidRegister }) ∧
  (∀ i v s go, 3 ≤ i.toNat → setReg i v s go = .next { s with fault := some .invalidRegister })

/-- 10_state R42, 70_reset R200: what reset leaves, from any state, and the entry point word 0. The zero of `pc` and
the empty latch are the spec's own decisions D4 and D6. -/
def Obligations.ResetValues : Prop :=
  (∀ s, (coreReset s).r0 = 0 ∧ (coreReset s).r1 = 0 ∧ (coreReset s).r2 = 0 ∧ (coreReset s).pc = 0 ∧
    (coreReset s).ir = none ∧ (coreReset s).run = .init ∧ (coreReset s).fault = none ∧
    fetchIndex (coreReset s) = 0 ∧ stepEnabled (coreReset s) = true) ∧
  State.reset.r0 = 0 ∧ State.reset.r1 = 0 ∧ State.reset.r2 = 0 ∧ State.reset.pc = 0 ∧ State.reset.ir = none ∧
  State.reset.run = .init ∧ State.reset.fault = none

/-- 10_state R37, 70_reset R215: the control inputs (the spec's own decision D14). That reset wins over a step request
asserted with it, and that reset keeps the loaded program, are the model's choices (log 14). -/
def Obligations.ControlInputs : Prop :=
  ∀ s, (∀ i : Inputs, i.rst = true → tick i s = .next (coreReset s)) ∧
    tick { rst := false, step := true } s = step s ∧
    tick { rst := false, step := false } s = .next s ∧
    (s.run = .halted ∨ s.fault ≠ none → tick { rst := false, step := true } s = .next s) ∧
    (coreReset s).progLen = s.progLen ∧ (coreReset s).prog = s.prog

/-- 10_state R40 (the spec's own decision D14): the termination outputs, with the codes of 60_exceptions R170 (its
decision D6); the two are never both 1 in a state of the invariant. -/
def Obligations.TerminationOutputs : Prop :=
  (∀ n s, ((outputs n s).halted = true ↔ s.run = .halted) ∧ ((outputs n s).faultValid = true ↔ s.fault ≠ none) ∧
    (outputs n s).faultCause = causeCode s.fault ∧ CodeAsTabled s.fault (outputs n s).faultCause) ∧
  (∀ n s, s.Inv → ¬ ((outputs n s).halted = true ∧ (outputs n s).faultValid = true))

/-- 10_state R39 (names and widths by the spec's own decision D14): the observation outputs and the snapshot are
copies of the registers, of `ir` and of `pc`; after reset they show the marker and three zeros, and after a step the word it
fetched. `run`'s suggested encoding is 10_state R32's. That `irWord` is `none` under the marker is log 17. -/
def Obligations.ObservationOutputs : Prop :=
  (∀ n s, readReg 0 s = some (outputs n s).r0 ∧ readReg 1 s = some (outputs n s).r1 ∧
    readReg 2 s = some (outputs n s).r2 ∧ ((outputs n s).irValid = true ↔ s.ir ≠ none) ∧
    (∀ w, s.ir = some w → (outputs n s).irWord = some w) ∧
    (s.pc < 2 ^ n → (outputs n s).pcOut.toNat = s.pc) ∧
    snapshot s = { ir := s.ir, r0 := (outputs n s).r0, r1 := (outputs n s).r1, r2 := (outputs n s).r2 }) ∧
  (∀ n s, (outputs n (coreReset s)).irValid = false ∧ (outputs n (coreReset s)).r0 = 0 ∧
    (outputs n (coreReset s)).r1 = 0 ∧ (outputs n (coreReset s)).r2 = 0 ∧ (outputs n (coreReset s)).pcOut = 0) ∧
  (∀ n s w, stepEnabled s = true → nextWord s = some w → ∃ t, step s = .next t ∧
    (outputs n t).irValid = true ∧ (outputs n t).irWord = some w) ∧
  runCode .init = 0 ∧ runCode .running = 1 ∧ runCode .halted = 2

/-- 10_state R41 (the spec's own decision D20): when the snapshot strobe comes. Its length in clocks is outside the
model (log 13). -/
def Obligations.SnapshotStrobe : Prop :=
  (∀ s i, Inputs.rst i = true → snapStrobe i s = true) ∧
  (∀ s w, stepEnabled s = true → nextWord s = some w →
    snapStrobe { rst := false, step := true } s = decide (wordFault w = none)) ∧
  (∀ s, stepEnabled s = false → snapStrobe { rst := false, step := true } s = false) ∧
  (∀ s, snapStrobe { rst := false, step := false } s = false)

/-- 00_scope R10 (the spec's own decision D9): a program counter of any width with `2^PC_WIDTH > L + 1` holds every value
the rules produce, and `prog_addr` is in `0 .. L-1` (10_state R38). That `prog_addr` shows the fetch index in a
terminal state too is the model's choice (log 20). -/
def Obligations.PcFitsEveryLegalWidth : Prop :=
  ∀ s n, s.Inv → 1 ≤ s.progLen → s.progLen + 1 < 2 ^ n →
    (outputs n s).pcOut.toNat = s.pc ∧ (outputs n s).progAddr.toNat = fetchIndex s ∧ fetchIndex s < s.progLen

/-! ### Invariants and whole runs -/

/-- The reset state meets the invariant (10_state R42, R44). -/
def Obligations.ResetMeetsInv : Prop := State.reset.Inv

/-- Every launched program meets the invariant, and every word below `L` is loaded (70_reset R202, R217). -/
def Obligations.LaunchMeetsInv : Prop :=
  ∀ ws, (launch ws).Inv ∧ (ws ≠ [] → (launch ws).Loaded)

/-- 10_state R27, R44: every step keeps the invariant, from every state that meets it, reached or not. -/
def Obligations.StepKeepsInv : Prop := ∀ s t, s.Inv → step s = .next t → t.Inv

/-- From every state of the invariant with its program loaded, reached or not, a step answers a next state, and that
state meets the invariant with its program loaded (40_fetch R100, R108; 10_state R44; 20_memory R53). In a terminal
state the next state is the same state (70_reset R211, log 7). -/
def Obligations.EveryStepGoesOn : Prop :=
  ∀ s, s.Inv → s.Loaded → ∃ t, step s = .next t ∧ t.Inv ∧ t.Loaded ∧ t.progLen = s.progLen ∧ t.prog = s.prog

/-- Every run of every program that the host loads goes on for ever as the model sees it, within the invariant: the
model never stops with a fault or a refusal of its own (40_fetch R100, R108; 70_reset R208, R216). A run that has ended
stays in its end state, where step requests are ignored (log 7). -/
def Obligations.EveryRunGoesOn : Prop :=
  ∀ ws n, ws ≠ [] → ∃ t, Sys2Proof.core.run n (launch ws) = .next t ∧ t.Inv ∧ t.progLen = ws.length ∧
    t.prog = (launch ws).prog

/-- 60_exceptions R172, 42_load R126: no step raises ImmediateOverflow, and no run reaches it. -/
def Obligations.ImmediateOverflowUnreachable : Prop :=
  (∀ s t, s.fault ≠ some .immediateOverflow → step s = .next t → t.fault ≠ some .immediateOverflow) ∧
  (∀ ws n t, Sys2Proof.core.run n (launch ws) = .next t → t.fault ≠ some .immediateOverflow)

/-- 70_reset R217, P2, as what every step keeps: while all listed words have decimal operand fields and the latch does
not hold MalformedProgramWord, a step leaves both so, from every state, reached or not. -/
def Obligations.StepKeepsNotMalformed : Prop :=
  ∀ s t, s.WordsDecimal → s.fault ≠ some .malformedProgramWord → step s = .next t →
    t.WordsDecimal ∧ t.fault ≠ some .malformedProgramWord

/-- 70_reset R217, P2: a run of a program whose words all have decimal operand fields never raises
MalformedProgramWord. -/
def Obligations.WellFormedProgramNeverMalformed : Prop :=
  ∀ ws n t, (∀ w ∈ ws, operandsDecimal w = true) → Sys2Proof.core.run n (launch ws) = .next t →
    t.fault ≠ some .malformedProgramWord

/-- 70_reset R216, which the spec marks as derived: a run ends HALTED or FAULTED, never both. A state of the invariant
has no step enabled exactly when it is one of the two. -/
def Obligations.RunEndsInOneOfTwoWays : Prop :=
  ∀ s, s.Inv → (stepEnabled s = false ↔ haltedEnd s = true ∨ faultedEnd s = true) ∧
    ¬ (haltedEnd s = true ∧ faultedEnd s = true)
end

