-- ==== Sys2Proof/Laws/Decode.lean ====
section
/-! SUPPORT. The fields of a word built from fields, and a word from its fields. -/

namespace Sys2Proof

@[simp] theorem opOf_mkWord (op k x y : Field) : opOf (mkWord op k x y) = op := by
  unfold opOf mkWord
  ext i hi
  simp only [BitVec.getElem_extractLsb', BitVec.getLsbD_append]
  have : ¬ 12 + i < 4 ∧ ¬ 12 + i - 4 < 4 ∧ ¬ 12 + i - 4 - 4 < 4 := by omega
  simp [this, show 12 + i - 4 - 4 - 4 = i by omega, BitVec.getLsbD_eq_getElem hi]

@[simp] theorem kOf_mkWord (op k x y : Field) : kOf (mkWord op k x y) = k := by
  unfold kOf mkWord
  ext i hi
  simp only [BitVec.getElem_extractLsb', BitVec.getLsbD_append]
  have : ¬ 8 + i < 4 ∧ ¬ 8 + i - 4 < 4 ∧ 8 + i - 4 - 4 < 4 := by omega
  simp [this, show 8 + i - 4 - 4 = i by omega, BitVec.getLsbD_eq_getElem hi]
  intro
  omega

@[simp] theorem xOf_mkWord (op k x y : Field) : xOf (mkWord op k x y) = x := by
  unfold xOf mkWord
  ext i hi
  simp only [BitVec.getElem_extractLsb', BitVec.getLsbD_append]
  have : ¬ 4 + i < 4 ∧ 4 + i - 4 < 4 := by omega
  simp [this, show 4 + i - 4 = i by omega, BitVec.getLsbD_eq_getElem hi]
  intro
  omega

@[simp] theorem yOf_mkWord (op k x y : Field) : yOf (mkWord op k x y) = y := by
  unfold yOf mkWord
  ext i hi
  simp only [BitVec.getElem_extractLsb', BitVec.getLsbD_append]
  simp [BitVec.getLsbD_eq_getElem hi]
  intro
  omega

/-- A word is the four fields it holds. -/
theorem mkWord_fields (w : Word) : mkWord (opOf w) (kOf w) (xOf w) (yOf w) = w := by
  unfold mkWord opOf kOf xOf yOf
  ext i hi
  simp only [BitVec.getElem_append, BitVec.getElem_extractLsb']
  split
  · simp [BitVec.getLsbD_eq_getElem hi]
  · split
    · simp [show 4 + (i - 4) = i by omega, BitVec.getLsbD_eq_getElem hi]
    · split
      · simp [show 8 + (i - 4 - 4) = i by omega, BitVec.getLsbD_eq_getElem hi]
      · simp [show 12 + (i - 4 - 4 - 4) = i by omega, BitVec.getLsbD_eq_getElem hi]

@[simp] theorem operandsDecimal_mkWord (op k x y : Field) :
    operandsDecimal (mkWord op k x y) = (Field.isDigit k && Field.isDigit x && Field.isDigit y) := by
  simp [operandsDecimal]

/-- Two decimal digits of an immediate 0 to 99 are its tens and units. -/
theorem immediate_digits {nn : Nat} (h : nn ≤ 99) : immediate (tensDigit nn) (unitsDigit nn) = nn := by
  simp only [immediate, tensDigit, unitsDigit, BitVec.toNat_ofNat]
  omega

theorem tensDigit_isDigit {nn : Nat} (h : nn ≤ 99) : Field.isDigit (tensDigit nn) = true := by
  simp only [Field.isDigit, tensDigit, Config.maxDigit, BitVec.toNat_ofNat, decide_eq_true_eq]
  omega

theorem unitsDigit_isDigit (nn : Nat) : Field.isDigit (unitsDigit nn) = true := by
  simp only [Field.isDigit, unitsDigit, Config.maxDigit, BitVec.toNat_ofNat, decide_eq_true_eq]
  omega

end Sys2Proof
end

