-- ==== Sys2Proof/Laws/Memory.lean ====
section
/-! SUPPORT. The program memory: read after write, and every operation keeps the canonical form. -/

namespace Sys2Proof.Machine

theorem Memory.wf_cons (c : Nat × Word) (m : Memory) :
    Memory.wf (c :: m) = true ↔ (∀ d ∈ m.head?, c.1 < d.1) ∧ Memory.wf m = true := by
  cases m <;> simp [Memory.wf]

@[simp] theorem Memory.read_write_same (m : Memory) (a : Nat) (v : Word) : (m.write a v).read a = some v := by
  induction m with
  | nil => simp [Memory.write, Memory.read]
  | cons c m ih =>
    simp only [Memory.write]
    split
    · simp [Memory.read]
    · split
      · simp [Memory.read]
      · simp [Memory.read, *]

theorem Memory.read_write_of_ne (m : Memory) {a b : Nat} (v : Word) (h : b ≠ a) :
    (m.write a v).read b = m.read b := by
  induction m with
  | nil => simp [Memory.write, Memory.read, h]
  | cons c m ih =>
    simp only [Memory.write]
    split
    · simp [Memory.read, h]
    · split
      · next h' => subst h'; simp [Memory.read, h]
      · simp [Memory.read, ih]

/-- The first index of a memory after a write is the index written or the first index before. -/
theorem Memory.head_write (m : Memory) (a : Nat) (v : Word) (d : Nat × Word) (h : d ∈ (m.write a v).head?) :
    d.1 = a ∨ d ∈ m.head? := by
  cases m with
  | nil => left; simp [Memory.write] at h; simp [← h]
  | cons c m =>
    simp only [Memory.write] at h
    split at h
    · left; simp at h; simp [← h]
    · split at h
      · left; simp at h; simp [← h]
      · right; simpa using h

/-- A write keeps the canonical form. -/
theorem Memory.wf_write (m : Memory) (a : Nat) (v : Word) (h : m.wf = true) : (m.write a v).wf = true := by
  induction m with
  | nil => rfl
  | cons c m ih =>
    obtain ⟨hc, hm⟩ := (Memory.wf_cons c m).1 h
    simp only [Memory.write]
    split
    · next hlt => exact (Memory.wf_cons _ _).2 ⟨by simpa using hlt, h⟩
    · split
      · next heq => subst heq; exact (Memory.wf_cons _ _).2 ⟨hc, hm⟩
      · refine (Memory.wf_cons _ _).2 ⟨fun d hd => ?_, ih hm⟩
        rcases Memory.head_write m a v d hd with h' | h'
        · show c.1 < d.1; omega
        · exact hc d h'

/-- A program laid out from an index on is in canonical form. -/
theorem Memory.wf_ofWords (n : Nat) (ws : List Word) : (Memory.ofWords n ws).wf = true := by
  induction ws generalizing n with
  | nil => rfl
  | cons w ws ih =>
    refine (Memory.wf_cons _ _).2 ⟨fun d hd => ?_, ih (n + 1)⟩
    cases ws with
    | nil => simp [Memory.ofWords] at hd
    | cons v ws => simp [Memory.ofWords] at hd; simp [← hd]

/-- Word `i` of a program laid out from index `n` on stands at index `n + i`; nothing stands elsewhere. -/
theorem Memory.read_ofWords (n : Nat) (ws : List Word) (a : Nat) :
    (Memory.ofWords n ws).read a = if n ≤ a then ws[a - n]? else none := by
  induction ws generalizing n with
  | nil => simp [Memory.ofWords, Memory.read]
  | cons w ws ih =>
    simp only [Memory.ofWords, Memory.read, ih]
    by_cases h : a = n
    · simp [h]
    · by_cases h' : n + 1 ≤ a
      · have : a - n = (a - (n + 1)) + 1 := by omega
        simp [h, h', this, (by omega : n ≤ a)]
      · rw [if_neg h, if_neg h', if_neg (by omega)]

/-- Every index of a laid out program is below its end. -/
theorem Memory.ofWords_below (n : Nat) (ws : List Word) : ∀ c ∈ Memory.ofWords n ws, c.1 < n + ws.length := by
  induction ws generalizing n with
  | nil => simp [Memory.ofWords]
  | cons w ws ih =>
    intro c hc
    rcases List.mem_cons.1 hc with rfl | hc
    · simp
    · have := ih (n + 1) c hc
      simp only [List.length_cons]
      omega

/-- Every cell of a laid out program holds one of its words. -/
theorem Memory.ofWords_words (n : Nat) (ws : List Word) : ∀ c ∈ Memory.ofWords n ws, c.2 ∈ ws := by
  induction ws generalizing n with
  | nil => simp [Memory.ofWords]
  | cons w ws ih =>
    intro c hc
    rcases List.mem_cons.1 hc with rfl | hc
    · simp
    · exact List.mem_cons_of_mem _ (ih (n + 1) c hc)

/-- The memory right after reset is in canonical form. -/
theorem reset_prog_wf : State.reset.prog.wf = true := rfl

/-- Placing a word for the next fetch keeps the canonical form. -/
theorem withFetchWord_prog_wf (s : State) (n w : Nat) (h : s.prog.wf = true) :
    (s.withFetchWord n w).prog.wf = true := by
  have := Memory.wf_write s.prog (fetchIndex s) (tableWord n w) h
  unfold State.withFetchWord
  split <;> exact this

/-- A load leaves the memory in canonical form. -/
theorem load_prog_wf (s : State) (ws : List Word) : (s.load ws).prog.wf = true := Memory.wf_ofWords 0 ws

end Sys2Proof.Machine
end

