-- ==== Sys2Proof/Laws/State.lean ====
section
/-! SUPPORT. One lemma per field per named update of State, so that no proof unfolds an update. -/

namespace Sys2Proof.Machine.State

@[simp] theorem withR0_r0 (s : State) (v : Byte) : (s.withR0 v).r0 = v := rfl
@[simp] theorem withR0_r1 (s : State) (v : Byte) : (s.withR0 v).r1 = s.r1 := rfl
@[simp] theorem withR0_r2 (s : State) (v : Byte) : (s.withR0 v).r2 = s.r2 := rfl
@[simp] theorem withR0_pc (s : State) (v : Byte) : (s.withR0 v).pc = s.pc := rfl
@[simp] theorem withR0_ir (s : State) (v : Byte) : (s.withR0 v).ir = s.ir := rfl
@[simp] theorem withR0_run (s : State) (v : Byte) : (s.withR0 v).run = s.run := rfl
@[simp] theorem withR0_fault (s : State) (v : Byte) : (s.withR0 v).fault = s.fault := rfl
@[simp] theorem withR0_progLen (s : State) (v : Byte) : (s.withR0 v).progLen = s.progLen := rfl
@[simp] theorem withR0_prog (s : State) (v : Byte) : (s.withR0 v).prog = s.prog := rfl

@[simp] theorem withR1_r0 (s : State) (v : Byte) : (s.withR1 v).r0 = s.r0 := rfl
@[simp] theorem withR1_r1 (s : State) (v : Byte) : (s.withR1 v).r1 = v := rfl
@[simp] theorem withR1_r2 (s : State) (v : Byte) : (s.withR1 v).r2 = s.r2 := rfl
@[simp] theorem withR1_pc (s : State) (v : Byte) : (s.withR1 v).pc = s.pc := rfl
@[simp] theorem withR1_ir (s : State) (v : Byte) : (s.withR1 v).ir = s.ir := rfl
@[simp] theorem withR1_run (s : State) (v : Byte) : (s.withR1 v).run = s.run := rfl
@[simp] theorem withR1_fault (s : State) (v : Byte) : (s.withR1 v).fault = s.fault := rfl
@[simp] theorem withR1_progLen (s : State) (v : Byte) : (s.withR1 v).progLen = s.progLen := rfl
@[simp] theorem withR1_prog (s : State) (v : Byte) : (s.withR1 v).prog = s.prog := rfl

@[simp] theorem withR2_r0 (s : State) (v : Byte) : (s.withR2 v).r0 = s.r0 := rfl
@[simp] theorem withR2_r1 (s : State) (v : Byte) : (s.withR2 v).r1 = s.r1 := rfl
@[simp] theorem withR2_r2 (s : State) (v : Byte) : (s.withR2 v).r2 = v := rfl
@[simp] theorem withR2_pc (s : State) (v : Byte) : (s.withR2 v).pc = s.pc := rfl
@[simp] theorem withR2_ir (s : State) (v : Byte) : (s.withR2 v).ir = s.ir := rfl
@[simp] theorem withR2_run (s : State) (v : Byte) : (s.withR2 v).run = s.run := rfl
@[simp] theorem withR2_fault (s : State) (v : Byte) : (s.withR2 v).fault = s.fault := rfl
@[simp] theorem withR2_progLen (s : State) (v : Byte) : (s.withR2 v).progLen = s.progLen := rfl
@[simp] theorem withR2_prog (s : State) (v : Byte) : (s.withR2 v).prog = s.prog := rfl

@[simp] theorem withPc_r0 (s : State) (n : Nat) : (s.withPc n).r0 = s.r0 := rfl
@[simp] theorem withPc_r1 (s : State) (n : Nat) : (s.withPc n).r1 = s.r1 := rfl
@[simp] theorem withPc_r2 (s : State) (n : Nat) : (s.withPc n).r2 = s.r2 := rfl
@[simp] theorem withPc_pc (s : State) (n : Nat) : (s.withPc n).pc = n := rfl
@[simp] theorem withPc_ir (s : State) (n : Nat) : (s.withPc n).ir = s.ir := rfl
@[simp] theorem withPc_run (s : State) (n : Nat) : (s.withPc n).run = s.run := rfl
@[simp] theorem withPc_fault (s : State) (n : Nat) : (s.withPc n).fault = s.fault := rfl
@[simp] theorem withPc_progLen (s : State) (n : Nat) : (s.withPc n).progLen = s.progLen := rfl
@[simp] theorem withPc_prog (s : State) (n : Nat) : (s.withPc n).prog = s.prog := rfl

@[simp] theorem withIr_r0 (s : State) (w : Option Word) : (s.withIr w).r0 = s.r0 := rfl
@[simp] theorem withIr_r1 (s : State) (w : Option Word) : (s.withIr w).r1 = s.r1 := rfl
@[simp] theorem withIr_r2 (s : State) (w : Option Word) : (s.withIr w).r2 = s.r2 := rfl
@[simp] theorem withIr_pc (s : State) (w : Option Word) : (s.withIr w).pc = s.pc := rfl
@[simp] theorem withIr_ir (s : State) (w : Option Word) : (s.withIr w).ir = w := rfl
@[simp] theorem withIr_run (s : State) (w : Option Word) : (s.withIr w).run = s.run := rfl
@[simp] theorem withIr_fault (s : State) (w : Option Word) : (s.withIr w).fault = s.fault := rfl
@[simp] theorem withIr_progLen (s : State) (w : Option Word) : (s.withIr w).progLen = s.progLen := rfl
@[simp] theorem withIr_prog (s : State) (w : Option Word) : (s.withIr w).prog = s.prog := rfl

@[simp] theorem withRun_r0 (s : State) (r : RunState) : (s.withRun r).r0 = s.r0 := rfl
@[simp] theorem withRun_r1 (s : State) (r : RunState) : (s.withRun r).r1 = s.r1 := rfl
@[simp] theorem withRun_r2 (s : State) (r : RunState) : (s.withRun r).r2 = s.r2 := rfl
@[simp] theorem withRun_pc (s : State) (r : RunState) : (s.withRun r).pc = s.pc := rfl
@[simp] theorem withRun_ir (s : State) (r : RunState) : (s.withRun r).ir = s.ir := rfl
@[simp] theorem withRun_run (s : State) (r : RunState) : (s.withRun r).run = r := rfl
@[simp] theorem withRun_fault (s : State) (r : RunState) : (s.withRun r).fault = s.fault := rfl
@[simp] theorem withRun_progLen (s : State) (r : RunState) : (s.withRun r).progLen = s.progLen := rfl
@[simp] theorem withRun_prog (s : State) (r : RunState) : (s.withRun r).prog = s.prog := rfl

@[simp] theorem withFault_r0 (s : State) (f : Option Cause) : (s.withFault f).r0 = s.r0 := rfl
@[simp] theorem withFault_r1 (s : State) (f : Option Cause) : (s.withFault f).r1 = s.r1 := rfl
@[simp] theorem withFault_r2 (s : State) (f : Option Cause) : (s.withFault f).r2 = s.r2 := rfl
@[simp] theorem withFault_pc (s : State) (f : Option Cause) : (s.withFault f).pc = s.pc := rfl
@[simp] theorem withFault_ir (s : State) (f : Option Cause) : (s.withFault f).ir = s.ir := rfl
@[simp] theorem withFault_run (s : State) (f : Option Cause) : (s.withFault f).run = s.run := rfl
@[simp] theorem withFault_fault (s : State) (f : Option Cause) : (s.withFault f).fault = f := rfl
@[simp] theorem withFault_progLen (s : State) (f : Option Cause) : (s.withFault f).progLen = s.progLen := rfl
@[simp] theorem withFault_prog (s : State) (f : Option Cause) : (s.withFault f).prog = s.prog := rfl

@[simp] theorem withProgram_r0 (s : State) (n : Nat) (m : Memory) : (s.withProgram n m).r0 = s.r0 := rfl
@[simp] theorem withProgram_r1 (s : State) (n : Nat) (m : Memory) : (s.withProgram n m).r1 = s.r1 := rfl
@[simp] theorem withProgram_r2 (s : State) (n : Nat) (m : Memory) : (s.withProgram n m).r2 = s.r2 := rfl
@[simp] theorem withProgram_pc (s : State) (n : Nat) (m : Memory) : (s.withProgram n m).pc = s.pc := rfl
@[simp] theorem withProgram_ir (s : State) (n : Nat) (m : Memory) : (s.withProgram n m).ir = s.ir := rfl
@[simp] theorem withProgram_run (s : State) (n : Nat) (m : Memory) : (s.withProgram n m).run = s.run := rfl
@[simp] theorem withProgram_fault (s : State) (n : Nat) (m : Memory) : (s.withProgram n m).fault = s.fault := rfl
@[simp] theorem withProgram_progLen (s : State) (n : Nat) (m : Memory) : (s.withProgram n m).progLen = n := rfl
@[simp] theorem withProgram_prog (s : State) (n : Nat) (m : Memory) : (s.withProgram n m).prog = m := rfl

end Sys2Proof.Machine.State
end

