-- ==== Sys2Proof/Laws/Ops.lean ====
section
/-! SUPPORT. For each shared operation, what it can do, said once; proofs cite these instead of unfolding. -/

namespace Sys2Proof.Machine

/-! ### The register file -/

theorem readReg_eq_none_iff (i : Field) (s : State) : readReg i s = none ↔ 2 < i.toNat := by
  unfold readReg
  split <;> simp_all
  omega

theorem readReg_of_le {i : Field} (h : i.toNat ≤ 2) (s : State) : ∃ v, readReg i s = some v := by
  rcases hr : readReg i s with _ | v
  · exact absurd ((readReg_eq_none_iff i s).1 hr) (by omega)
  · exact ⟨v, rfl⟩

theorem writeReg_eq_none_iff (i : Field) (v : Byte) (s : State) : writeReg i v s = none ↔ 2 < i.toNat := by
  unfold writeReg
  split <;> simp_all
  omega

theorem writeReg_of_le {i : Field} (h : i.toNat ≤ 2) (v : Byte) (s : State) : ∃ t, writeReg i v s = some t := by
  rcases hw : writeReg i v s with _ | t
  · exact absurd ((writeReg_eq_none_iff i v s).1 hw) (by omega)
  · exact ⟨t, rfl⟩

/-- What a write to the register file that succeeds leaves: the value at its index, everything else as before. -/
theorem writeReg_spec {i : Field} {v : Byte} {s t : State} (h : writeReg i v s = some t) :
    readReg i t = some v ∧ (∀ j, j ≠ i → readReg j t = readReg j s) ∧
      t.pc = s.pc ∧ t.ir = s.ir ∧ t.run = s.run ∧ t.fault = s.fault ∧ t.progLen = s.progLen ∧ t.prog = s.prog := by
  have key : ∀ j : Field, j ≠ i → j.toNat ≠ i.toNat := fun j hj he => hj (BitVec.eq_of_toNat_eq he)
  unfold writeReg at h
  split at h
  · next hi =>
    cases h
    refine ⟨by simp [readReg, hi], fun j hj => ?_, rfl, rfl, rfl, rfl, rfl, rfl⟩
    have := key j hj
    unfold readReg
    split <;> simp_all
  · next hi =>
    cases h
    refine ⟨by simp [readReg, hi], fun j hj => ?_, rfl, rfl, rfl, rfl, rfl, rfl⟩
    have := key j hj
    unfold readReg
    split <;> simp_all
  · next hi =>
    cases h
    refine ⟨by simp [readReg, hi], fun j hj => ?_, rfl, rfl, rfl, rfl, rfl, rfl⟩
    have := key j hj
    unfold readReg
    split <;> simp_all
  · cases h

/-! ### Checked accesses within an instruction -/

theorem withReg_cases (i : Field) (s : State) (go : Byte → Result) :
    (∃ v, readReg i s = some v ∧ withReg i s go = go v) ∨
      (2 < i.toNat ∧ withReg i s go = raise .invalidRegister s) := by
  unfold withReg
  rcases h : readReg i s with _ | v
  · exact .inr ⟨(readReg_eq_none_iff i s).1 h, rfl⟩
  · exact .inl ⟨v, rfl, rfl⟩

theorem setReg_cases (i : Field) (v : Byte) (s : State) (go : State → Result) :
    (∃ t, writeReg i v s = some t ∧ setReg i v s go = go t) ∨
      (2 < i.toNat ∧ setReg i v s go = raise .invalidRegister s) := by
  unfold setReg
  rcases h : writeReg i v s with _ | t
  · exact .inr ⟨(writeReg_eq_none_iff i v s).1 h, rfl⟩
  · exact .inl ⟨t, rfl, rfl⟩

/-! ### FETCH and the step -/

/-- FETCH answers a next state exactly when there is a word to read. -/
theorem fetch_eq_next {s : State} {w : Word} (hL : s.progLen ≠ 0) (h : s.prog.read (fetchIndex s) = some w) :
    fetch s = .next (fetched s w) := by
  simp [fetch, hL, h]

/-- The three outcomes of FETCH. -/
theorem fetch_cases (s : State) :
    (∃ w, s.progLen ≠ 0 ∧ s.prog.read (fetchIndex s) = some w ∧ fetch s = .next (fetched s w)) ∨
      (s.progLen = 0 ∧ fetch s = .refused .emptyProgram) ∨
      (s.progLen ≠ 0 ∧ s.prog.read (fetchIndex s) = none ∧ fetch s = .fault (.unloadedWord (fetchIndex s))) := by
  by_cases hL : s.progLen = 0
  · exact .inr (.inl ⟨hL, by simp [fetch, hL]⟩)
  · rcases h : s.prog.read (fetchIndex s) with _ | w
    · exact .inr (.inr ⟨hL, rfl, by simp [fetch, hL, h]⟩)
    · exact .inl ⟨w, hL, rfl, fetch_eq_next hL h⟩

/-- The index FETCH reads is inside the program. -/
theorem fetchIndex_lt {s : State} (hL : s.progLen ≠ 0) : fetchIndex s < s.progLen := by
  unfold fetchIndex
  split <;> omega

/-- An enabled step that answers a next state has read a word and executed it. -/
theorem step_enabled {s t : State} (he : stepEnabled s = true) (h : step s = .next t) :
    ∃ w, s.progLen ≠ 0 ∧ s.prog.read (fetchIndex s) = some w ∧ executeWord w (fetched s w) = .next t := by
  simp only [step, he, if_true, fetchExecute] at h
  rcases fetch_cases s with ⟨w, hL, hw, hf⟩ | ⟨-, hf⟩ | ⟨-, -, hf⟩
  · rw [hf] at h
    exact ⟨w, hL, hw, h⟩
  · rw [hf] at h; cases h
  · rw [hf] at h; cases h

/-- An enabled step with a word to read is EXECUTE of that word in the state FETCH leaves. -/
theorem step_of_read {s : State} {w : Word} (he : stepEnabled s = true) (hL : s.progLen ≠ 0)
    (h : s.prog.read (fetchIndex s) = some w) : step s = executeWord w (fetched s w) := by
  simp only [step, he, if_true, fetchExecute, fetch_eq_next hL h]
  rfl

/-- In a terminal state a step request changes nothing. -/
theorem step_disabled {s : State} (he : stepEnabled s = false) : step s = .next s := by simp [step, he]

/-- The two ways EXECUTE goes on a word. -/
theorem executeWord_cases (w : Word) (s : State) :
    (∃ i, decode w = .ok i ∧ executeWord w s = exec i s) ∨
      (∃ e, decode w = .error e ∧ executeWord w s = raise (decodeCause e) s) := by
  unfold executeWord
  rcases h : decode w with e | i
  · exact .inr ⟨e, rfl, rfl⟩
  · exact .inl ⟨i, rfl, rfl⟩

end Sys2Proof.Machine
end

