-- ==== Sys2Proof/Laws/Operands.lean ====
section
/-! SUPPORT. For each operand shape, what it can do, said once. -/

namespace Sys2Proof.Machine

theorem withPair_cases (x y : Field) (s : State) (go : Byte → Byte → Result) :
    (∃ a b, readReg x s = some a ∧ readReg y s = some b ∧ withPair x y s go = go a b) ∨
      ((2 < x.toNat ∨ 2 < y.toNat) ∧ withPair x y s go = raise .invalidRegister s) := by
  unfold withPair
  rcases withReg_cases x s (fun a => withReg y s fun b => go a b) with ⟨a, ha, h⟩ | ⟨hx, h⟩
  · rcases withReg_cases y s (go a) with ⟨b, hb, h'⟩ | ⟨hy, h'⟩
    · exact .inl ⟨a, b, ha, hb, by rw [h, h']⟩
    · exact .inr ⟨.inr hy, by rw [h, h']⟩
  · exact .inr ⟨.inl hx, h⟩

/-- The two writes of ADD and SUB: the carry or borrow is what `R[2]` holds, the result is what `R[x]` holds unless
`x = 2`, and nothing else changes. -/
theorem writeResultAndCarry_spec {x : Field} (hx : x.toNat ≤ 2) (r c : Byte) (s : State) :
    ∃ t, writeResultAndCarry x r c s = .next t ∧ readReg 2 t = some c ∧ (x ≠ 2 → readReg x t = some r) ∧
      (∀ j, j ≠ x → j ≠ 2 → readReg j t = readReg j s) ∧
      t.pc = s.pc ∧ t.ir = s.ir ∧ t.run = s.run ∧ t.fault = s.fault ∧ t.progLen = s.progLen ∧ t.prog = s.prog := by
  obtain ⟨u, hu⟩ := writeReg_of_le hx r s
  obtain ⟨t, ht⟩ := writeReg_of_le (i := Config.carryReg) (by decide) c u
  obtain ⟨hu1, hu2, hu3, hu4, hu5, hu6, hu7, hu8⟩ := writeReg_spec hu
  obtain ⟨ht1, ht2, ht3, ht4, ht5, ht6, ht7, ht8⟩ := writeReg_spec ht
  refine ⟨t, by simp [writeResultAndCarry, setReg, hu, ht], ht1, fun h => ?_, fun j hj hj2 => ?_, ?_⟩
  · rw [ht2 x h, hu1]
  · rw [ht2 j hj2, hu2 j hj]
  · exact ⟨ht3.trans hu3, ht4.trans hu4, ht5.trans hu5, ht6.trans hu6, ht7.trans hu7, ht8.trans hu8⟩

theorem arithmetic_cases (res car : Byte → Byte → Byte) (x y : Field) (s : State) :
    (∃ a b, readReg x s = some a ∧ readReg y s = some b ∧ x.toNat ≤ 2 ∧
      arithmetic res car x y s = writeResultAndCarry x (res a b) (car a b) s) ∨
      ((2 < x.toNat ∨ 2 < y.toNat) ∧ arithmetic res car x y s = raise .invalidRegister s) := by
  rcases withPair_cases x y s (fun a b => writeResultAndCarry x (res a b) (car a b) s) with ⟨a, b, ha, hb, h⟩ | h
  · refine .inl ⟨a, b, ha, hb, ?_, h⟩
    by_contra hx
    rw [(readReg_eq_none_iff x s).2 (by omega)] at ha
    cases ha
  · exact .inr h

theorem logic_cases (f : Byte → Byte → Byte) (x y : Field) (s : State) :
    (∃ a b t, readReg x s = some a ∧ readReg y s = some b ∧ writeReg x (f a b) s = some t ∧
      logic f x y s = .next t) ∨
      ((2 < x.toNat ∨ 2 < y.toNat) ∧ logic f x y s = raise .invalidRegister s) := by
  rcases withPair_cases x y s (fun a b => setReg x (f a b) s .next) with ⟨a, b, ha, hb, h⟩ | h
  · rcases setReg_cases x (f a b) s .next with ⟨t, ht, h'⟩ | ⟨hx, h'⟩
    · exact .inl ⟨a, b, t, ha, hb, ht, h.trans h'⟩
    · exact .inr ⟨.inl hx, h.trans h'⟩
  · exact .inr h

theorem skipImm_cases (cond : Nat → Nat → Bool) (k : Field) (nn : Nat) (s : State) :
    (∃ a, readReg k s = some a ∧ skipImm cond k nn s = .next (if cond a.toNat nn then skip s else s)) ∨
      (2 < k.toNat ∧ skipImm cond k nn s = raise .invalidRegister s) :=
  withReg_cases k s _

theorem skipReg_cases (cond : Byte → Byte → Bool) (x y : Field) (s : State) :
    (∃ a b, readReg x s = some a ∧ readReg y s = some b ∧
      skipReg cond x y s = .next (if cond a b then skip s else s)) ∨
      ((2 < x.toNat ∨ 2 < y.toNat) ∧ skipReg cond x y s = raise .invalidRegister s) :=
  withPair_cases x y s _

end Sys2Proof.Machine
end

