-- ==== Sys2Proof/Laws/PerInstr.lean ====
section
/-! SUPPORT. A statement about every instruction as syntax, one lemma per constructor: the word of a well-formed
instruction has its row's opcode in bits 15:12 and passes the operand check (30_encoding R71, R80, R82). -/

namespace Sys2Proof.Laws.EncodeFields

/-- The encoded word has the row's opcode and decimal operand fields. -/
def Statement (i : Instr) : Prop := i.wf = true → opOf (encode i) = i.opcode ∧ operandsDecimal (encode i) = true

theorem of_fields {op k x y : Field} (h : Instr.wfFields k x y = true) :
    opOf (mkWord op k x y) = op ∧ operandsDecimal (mkWord op k x y) = true := by
  simpa [Instr.wfFields] using h

theorem of_imm {op k : Field} {nn : Nat} (h : Instr.wfImm k nn = true) :
    opOf (mkWordImm op k nn) = op ∧ operandsDecimal (mkWordImm op k nn) = true := by
  obtain ⟨hk, hn⟩ := Bool.and_eq_true_iff.1 h
  simp [mkWordImm, hk, tensDigit_isDigit (of_decide_eq_true hn), unitsDigit_isDigit]

theorem halt (k x y : Field) : Statement (.halt k x y) := of_fields
theorem load (k : Field) (nn : Nat) : Statement (.load k nn) := of_imm
theorem add (k x y : Field) : Statement (.add k x y) := of_fields
theorem sub (k x y : Field) : Statement (.sub k x y) := of_fields
theorem or (k x y : Field) : Statement (.or k x y) := of_fields
theorem and (k x y : Field) : Statement (.and k x y) := of_fields
theorem xor (k x y : Field) : Statement (.xor k x y) := of_fields
theorem skipEqImm (k : Field) (nn : Nat) : Statement (.skipEqImm k nn) := of_imm
theorem skipNeqImm (k : Field) (nn : Nat) : Statement (.skipNeqImm k nn) := of_imm
theorem skipEqReg (k x y : Field) : Statement (.skipEqReg k x y) := of_fields
theorem skipNeqReg (k x y : Field) : Statement (.skipNeqReg k x y) := of_fields

end Sys2Proof.Laws.EncodeFields
end

