-- ==== Sys2Proof/Laws/Step.lean ====
section
/-! SUPPORT. A word placed for the next fetch is the word the next step runs. -/

namespace Sys2Proof.Machine

/-- `withFetchWord` leaves a machine whose next step is EXECUTE of the placed word, from every state. -/
theorem step_withFetchWord (s : State) (n w : Nat) :
    step (s.withFetchWord n w) = executeWord (tableWord n w) (fetched (s.withFetchWord n w) (tableWord n w)) := by
  have hlen : (s.withFetchWord n w).progLen = max 1 s.progLen := by
    unfold State.withFetchWord; split <;> rfl
  have hpc : (s.withFetchWord n w).pc = s.pc := by
    unfold State.withFetchWord; split <;> rfl
  have hprog : (s.withFetchWord n w).prog = s.prog.write (fetchIndex s) (tableWord n w) := by
    unfold State.withFetchWord; split <;> rfl
  have hindex : fetchIndex (s.withFetchWord n w) = fetchIndex s := by
    unfold fetchIndex
    rw [hlen, hpc]
    split <;> split <;> omega
  refine step_of_read ?_ (by omega) ?_
  · unfold State.withFetchWord
    split
    · assumption
    · rfl
  · rw [hindex, hprog, Memory.read_write_same]

end Sys2Proof.Machine
end

