-- ==== Sys2Proof/Tests/Slice0.lean ====
section
/-! SUPPORT. Tests. Expected results are spec/95_test_vectors.md's and the rules', never the model's own answers.
`vec` is the setting of 95_test_vectors section 2: `L = 4`, the word under test at index 1, `pc = 1`, Running. -/

namespace Sys2Proof.Tests

open Sys2Proof.Machine

/-! ### Helpers -/

/-- A running core about to fetch `w` at index `pc` of a program of 4 words. -/
def at_ (pc : Nat) (w : Word) (a b c : Byte) : State :=
  { r0 := a, r1 := b, r2 := c, pc := pc, ir := some 0x4000#16, run := .running, fault := none,
    progLen := 4, prog := [(if 4 ≤ pc then 0 else pc, w)] }

/-- The setting of 95_test_vectors section 2. -/
def vec (w : Word) (a b c : Byte) : State := at_ 1 w a b c

/-- What a test looks at: the registers, the `pc`, the run state and the latch. -/
structure View where
  r0 : Nat
  r1 : Nat
  r2 : Nat
  pc : Nat
  run : RunState
  fault : Option Cause
  deriving DecidableEq

/-- The view of a next state. -/
def view : Result → Option View
  | .next t => some ⟨t.r0.toNat, t.r1.toNat, t.r2.toNat, t.pc, t.run, t.fault⟩
  | _ => none

/-- A halted core, and a faulted one. -/
def haltedState : State := { vec 0x0000#16 8 3 0 with pc := 2, ir := some 0x0000#16, run := .halted }
def faultedState : State :=
  { vec 0x2003#16 5 0 0 with pc := 2, ir := some 0x2003#16, fault := some .invalidRegister }

/-! ### WellFormed refuses what has no word -/

theorem test_wf_refuses_k : (Instr.add 10 0 1).wf = false ∧ (Instr.load 10 7).wf = false := by decide
theorem test_wf_refuses_x : (Instr.halt 0 10 0).wf = false := by decide
theorem test_wf_refuses_y : (Instr.skipEqReg 0 0 15).wf = false := by decide
theorem test_wf_refuses_imm : (Instr.skipNeqImm 0 100).wf = false := by decide
theorem test_wf_admits_bad_register : (Instr.sub 0 4 0).wf = true := by decide

/-! ### Decoding, words written out from 30_encoding R80 -/

theorem test_decode_halt : decode 0b0000_0001_0010_0011#16 = .ok (.halt 1 2 3) := by decide
theorem test_decode_load : decode 0b0001_0010_0101_0110#16 = .ok (.load 2 56) := by decide
theorem test_decode_add : decode 0b0010_1001_0000_0001#16 = .ok (.add 9 0 1) := by decide
theorem test_decode_sub : decode 0b0011_0000_0010_0001#16 = .ok (.sub 0 2 1) := by decide
theorem test_decode_or : decode 0b0100_0000_0001_0010#16 = .ok (.or 0 1 2) := by decide
theorem test_decode_and : decode 0b0101_0011_0000_0010#16 = .ok (.and 3 0 2) := by decide
theorem test_decode_xor : decode 0b0110_0000_0010_0001#16 = .ok (.xor 0 2 1) := by decide
theorem test_decode_skipEqImm : decode 0b0111_0000_0000_0111#16 = .ok (.skipEqImm 0 7) := by decide
theorem test_decode_skipNeqImm : decode 0b1000_0001_1001_1001#16 = .ok (.skipNeqImm 1 99) := by decide
theorem test_decode_skipEqReg : decode 0b1001_0000_0001_0010#16 = .ok (.skipEqReg 0 1 2) := by decide
theorem test_decode_skipNeqReg : decode 0b1010_0000_0000_0001#16 = .ok (.skipNeqReg 0 0 1) := by decide
theorem test_decode_unknown : decode 0xB300#16 = .error .unknownOpcode := by decide
theorem test_decode_malformed_first : decode 0xBF00#16 = .error .malformedProgramWord := by decide
theorem test_table_word : decodeTableWord 16 0x7201 = some (.skipEqImm 2 1) := by decide
theorem test_table_word_refused : decodeTableWord 16 0x000A = none := by decide

/-! ### One step of each instruction (95_test_vectors 2.1 to 2.7) -/

theorem test_halt : view (step (vec 0x0123#16 1 2 3)) = some ⟨1, 2, 3, 2, .halted, none⟩ := by decide
theorem test_halt_malformed :
    view (step (vec 0x000A#16 1 2 3)) = some ⟨1, 2, 3, 2, .running, some .malformedProgramWord⟩ := by decide
theorem test_load_is_decimal : view (step (vec 0x1255#16 0 0 0)) = some ⟨0, 0, 55, 2, .running, none⟩ := by decide
theorem test_load_bad_register :
    view (step (vec 0x1999#16 1 2 3)) = some ⟨1, 2, 3, 2, .running, some .invalidRegister⟩ := by decide
theorem test_add_carry : view (step (vec 0x2001#16 250 10 0)) = some ⟨4, 10, 1, 2, .running, none⟩ := by decide
theorem test_add_carry_written_last :
    view (step (vec 0x2020#16 100 0 200)) = some ⟨100, 0, 1, 2, .running, none⟩ := by decide
theorem test_sub_borrow : view (step (vec 0x3001#16 5 10 0)) = some ⟨251, 10, 1, 2, .running, none⟩ := by decide
theorem test_sub_uses_old_r2 : view (step (vec 0x3002#16 1 0 3)) = some ⟨254, 0, 1, 2, .running, none⟩ := by decide
theorem test_or_into_r2 : view (step (vec 0x4021#16 0 60 1)) = some ⟨0, 60, 61, 2, .running, none⟩ := by decide
theorem test_or_bad_y :
    view (step (vec 0x4005#16 1 2 3)) = some ⟨1, 2, 3, 2, .running, some .invalidRegister⟩ := by decide
theorem test_and : view (step (vec 0x5001#16 240 60 0)) = some ⟨48, 60, 0, 2, .running, none⟩ := by decide
theorem test_and_unused_k : view (step (vec 0x5300#16 1 2 3)) = some ⟨1, 2, 3, 2, .running, none⟩ := by decide
theorem test_xor : view (step (vec 0x6001#16 240 60 0)) = some ⟨204, 60, 0, 2, .running, none⟩ := by decide
theorem test_xor_clears : view (step (vec 0x6022#16 1 2 200)) = some ⟨1, 2, 0, 2, .running, none⟩ := by decide
theorem test_skipEqImm_taken : view (step (vec 0x7201#16 0 0 1)) = some ⟨0, 0, 1, 3, .running, none⟩ := by decide
theorem test_skipEqImm_not : view (step (vec 0x7100#16 0 200 0)) = some ⟨0, 200, 0, 2, .running, none⟩ := by decide
theorem test_skipNeqImm_taken : view (step (vec 0x8199#16 0 200 0)) = some ⟨0, 200, 0, 3, .running, none⟩ := by decide
theorem test_skipNeqImm_not : view (step (vec 0x8003#16 3 0 0)) = some ⟨3, 0, 0, 2, .running, none⟩ := by decide
theorem test_skipEqReg_taken : view (step (vec 0x9012#16 0 1 1)) = some ⟨0, 1, 1, 3, .running, none⟩ := by decide
theorem test_skipEqReg_bad_y :
    view (step (vec 0x9903#16 1 2 3)) = some ⟨1, 2, 3, 2, .running, some .invalidRegister⟩ := by decide
theorem test_skipNeqReg_equal : view (step (vec 0xA001#16 5 5 0)) = some ⟨5, 5, 0, 3, .running, none⟩ := by decide
theorem test_skipNeqReg_unequal : view (step (vec 0xA001#16 5 6 0)) = some ⟨5, 6, 0, 2, .running, none⟩ := by decide
theorem test_unknown :
    view (step (vec 0xC123#16 1 2 3)) = some ⟨1, 2, 3, 2, .running, some .unknownOpcode⟩ := by decide
theorem test_malformed_first :
    view (step (vec 0x2F03#16 1 2 3)) = some ⟨1, 2, 3, 2, .running, some .malformedProgramWord⟩ := by decide

/-! ### Fetch, wrap, run state (95_test_vectors 2.8) -/

theorem test_first_fetch : view (step (launch [0x1005#16, 0x1103#16])) = some ⟨5, 0, 0, 1, .running, none⟩ := by decide
theorem test_skip_in_last_word : view (step (at_ 3 0x9000#16 8 3 0)) = some ⟨8, 3, 0, 5, .running, none⟩ := by decide
theorem test_wrap_is_a_reset : view (step (at_ 5 0x1005#16 8 3 0)) = some ⟨5, 3, 0, 1, .running, none⟩ := by decide
theorem test_halt_in_one_step : view (step (launch [0x0000#16])) = some ⟨0, 0, 0, 1, .halted, none⟩ := by decide
theorem test_halted_ignores_step : step haltedState = .next haltedState := rfl
theorem test_faulted_ignores_step : step faultedState = .next faultedState := rfl
theorem test_reset_has_no_program : step State.reset = .refused .emptyProgram := rfl
theorem test_unloaded_word : step { vec 0 0 0 0 with prog := [] } = .fault (.unloadedWord 1) := rfl
theorem test_placed_word_runs :
    view (step (State.reset.withFetchWord 16 0x1107)) = some ⟨0, 7, 0, 1, .running, none⟩ := by decide

/-! ### Ports, loader, assembler -/

theorem test_outputs_of_a_fault :
    (outputs 4 faultedState).faultCause = 1 ∧ (outputs 4 faultedState).halted = false ∧
      (outputs 4 faultedState).pcOut = 2 := by decide
theorem test_load_file :
    loadProgram ['1', '1', '0', '7', 'B', '0', '0', '0'] = .ok [0x1107#16, 0xB000#16] := by rfl
theorem test_load_refuses_lower_case :
    loadText false ['a', '0', '0', '1'] = .error .malformedProgramWord ∧
      loadText true ['a', '0', '0', '1'] = .ok [0xA001#16] := ⟨rfl, rfl⟩
theorem test_load_refuses_short_chunk : loadText false ['0', '0', '0'] = .error .malformedProgramWord := rfl
theorem test_assemble_load :
    (assembleLine ['L', 'O', 'A', 'D', ' ', '1', ',', ' ', '7']).map encode = some 0x1107#16 := by decide
theorem test_assemble_add :
    (assembleLine ['A', 'D', 'D', ' ', '0', ',', '1']).map encode = some 0x2001#16 := by decide

/-! ### Witnesses: for every statement with hypotheses, concrete values that meet them together -/

theorem witness_SourceEncodingsRead : opOf 0xB999#16 = 11 ∧ operandsDecimal 0xB999#16 = true := by decide
theorem witness_OpcodeMapDecides :
    Field.isDigit 9 = true ∧ Field.isDigit 0 = true ∧ operandsDecimal 0x00A0#16 = false ∧
      (operandsDecimal 0xB999#16 = true ∧ 11 ≤ (opOf 0xB999#16).toNat) := by decide
theorem witness_DecodeOfEncode : (Instr.load 9 99).wf = true ∧ (Instr.skipNeqReg 9 9 9).wf = true := by decide
theorem witness_EncodeOfDecode : decode 0x1999#16 = .ok (.load 9 99) := by decide
theorem witness_TextFormOneToOne :
    operandsDecimal 0xF999#16 = true ∧ parseWord false 'F' '9' '9' '9' = some 0xF999#16 := by decide
theorem witness_ProgramFileLoads :
    [0xF999#16, 0x0000#16] ≠ ([] : List Word) ∧ ∀ w ∈ [0xF999#16, 0x0000#16], operandsDecimal w = true :=
  ⟨by simp, List.forall_mem_cons.2 ⟨by decide, List.forall_mem_singleton.2 (by decide)⟩⟩
theorem witness_AssemblerRoundTrip : (Instr.load 9 99).wf = true ∧ (Instr.halt 9 9 9).wf = true := by decide
theorem witness_FetchFollowsRule :
    (1 ≤ (at_ 3 0x1107#16 0 0 0).progLen ∧ (at_ 3 0x1107#16 0 0 0).prog.read 3 = some 0x1107#16) ∧
      (at_ 5 0x1107#16 0 0 0).prog.read 0 = some 0x1107#16 := by decide
theorem witness_StepRunsDecodedInstruction :
    stepEnabled (vec 0x1107#16 0 0 0) = true ∧ 1 ≤ (vec 0x1107#16 0 0 0).progLen ∧
      (vec 0x1107#16 0 0 0).prog.read (if (vec 0x1107#16 0 0 0).progLen ≤ (vec 0x1107#16 0 0 0).pc then 0
        else (vec 0x1107#16 0 0 0).pc) = some 0x1107#16 ∧ decode 0x1107#16 = .ok (.load 1 7) := by decide
theorem witness_StepIsTheWholeFunction :
    (stepEnabled (vec 0x000A#16 0 0 0) = true ∧ (vec 0x000A#16 0 0 0).prog.read 1 = some 0x000A#16 ∧
      operandsDecimal 0x000A#16 = false) ∧
    ((vec 0xB000#16 0 0 0).prog.read 1 = some 0xB000#16 ∧ operandsDecimal 0xB000#16 = true ∧
      11 ≤ (opOf 0xB000#16).toNat) ∧
    ((vec 0xA030#16 0 0 0).prog.read 1 = some 0xA030#16 ∧ operandsDecimal 0xA030#16 = true ∧
      (opOf 0xA030#16).toNat ≤ 10 ∧
      (view (step (vec 0xA030#16 0 0 0))) = some ⟨0, 0, 0, 2, .running, some .invalidRegister⟩) := by decide
theorem witness_OperandCheckComesFirst :
    stepEnabled (vec 0xBA00#16 0 0 0) = true ∧ nextWord (vec 0xBA00#16 0 0 0) = some 0xBA00#16 ∧
      9 < (kOf 0xBA00#16).toNat ∧ 9 < (xOf 0x00A0#16).toNat ∧ 9 < (yOf 0x000A#16).toNat := by decide
theorem witness_DefaultArmRaisesUnknownOpcode :
    stepEnabled (vec 0xB999#16 0 0 0) = true ∧ nextWord (vec 0xB999#16 0 0 0) = some 0xB999#16 ∧
      operandsDecimal 0xB999#16 = true ∧ 11 ≤ (opOf 0xB999#16).toNat := by decide
theorem witness_StepFaultsExactlyAsTabled :
    (stepEnabled (vec 0x2033#16 0 0 0) = true ∧ nextWord (vec 0x2033#16 0 0 0) = some 0x2033#16) ∧
      nextWord (vec 0x2022#16 0 0 0) = some 0x2022#16 ∧ wordFault 0x2022#16 = none := by decide
theorem witness_FaultPriority :
    ∃ t, stepEnabled (vec 0x2033#16 1 2 3) = true ∧ nextWord (vec 0x2033#16 1 2 3) = some 0x2033#16 ∧
      step (vec 0x2033#16 1 2 3) = .next t ∧ t.fault = some .invalidRegister := ⟨_, rfl, rfl, rfl, rfl⟩
theorem witness_FaultLeavesOnlyTheLatch :
    ∃ t, stepEnabled (vec 0x2F03#16 1 2 3) = true ∧ step (vec 0x2F03#16 1 2 3) = .next t ∧
      t.fault = some .malformedProgramWord := ⟨_, rfl, rfl, rfl⟩
theorem witness_TerminalStatesFrozen : haltedState.run = .halted ∧ faultedState.fault ≠ none := by decide
theorem witness_RunStateTransitions :
    (stepEnabled (launch [0x0999#16]) = true ∧ nextWord (launch [0x0999#16]) = some 0x0999#16) ∧
      ∃ t, haltedState.run = .halted ∧ step haltedState = .next t := ⟨⟨rfl, rfl⟩, _, rfl, rfl⟩
theorem witness_PcMovesAsListed :
    (stepEnabled (vec 0x9000#16 0 0 0) = true ∧ nextWord (vec 0x9000#16 0 0 0) = some 0x9000#16 ∧
      wordFault 0x9000#16 = none ∧ skipTaken 0x9000#16 (vec 0x9000#16 0 0 0) = true) ∧
      skipTaken 0x7007#16 (vec 0x7007#16 6 0 0) = false := by decide
theorem witness_RegistersChangeOnlyAsTabled :
    stepEnabled (vec 0x2021#16 0 0 0) = true ∧ nextWord (vec 0x2021#16 0 0 0) = some 0x2021#16 ∧
      writtenRegs 0x2021#16 = [2, 2] := by decide
theorem witness_ProgramIsImmutable : ∃ t, step (vec 0x1107#16 0 0 0) = .next t := ⟨_, rfl⟩
theorem witness_OnlyTheFetchedWordMatters :
    (∃ t, step (vec 0x9000#16 0 0 0) = .next t) ∧
      Memory.read [(1, 0x9000#16), (2, 0xFFFF#16)] (fetchIndex (vec 0x9000#16 0 0 0)) =
        (vec 0x9000#16 0 0 0).prog.read (fetchIndex (vec 0x9000#16 0 0 0)) := ⟨⟨_, rfl⟩, by decide⟩
theorem witness_UnusedFieldsHaveNoEffect : (Instr.add 9 0 1).canonical = (Instr.add 0 0 1).canonical := by decide
theorem witness_SkipAtTheEndIsAbsorbed :
    (stepEnabled (at_ 3 0x9000#16 0 0 0) = true ∧ nextWord (at_ 3 0x9000#16 0 0 0) = some 0x9000#16 ∧
      wordFault 0x9000#16 = none ∧ skipTaken 0x9000#16 (at_ 3 0x9000#16 0 0 0) = true ∧
      fetchIndex (at_ 3 0x9000#16 0 0 0) + 1 = (at_ 3 0x9000#16 0 0 0).progLen) ∧
    (nextWord (at_ 2 0x9000#16 0 0 0) = some 0x9000#16 ∧
      fetchIndex (at_ 2 0x9000#16 0 0 0) + 2 = (at_ 2 0x9000#16 0 0 0).progLen) := by decide
theorem witness_HaltRule :
    (opOf 0x000A#16 = 0 ∧ operandsDecimal 0x000A#16 = false) ∧
    (stepEnabled (at_ 3 0x0000#16 8 3 0) = true ∧ nextWord (at_ 3 0x0000#16 8 3 0) = some 0x0000#16 ∧
      operandsDecimal 0x0000#16 = true ∧ opOf 0x0000#16 = 0) ∧
    ((at_ 3 0x0000#16 8 3 0).r0 = 8 ∧ (at_ 3 0x0000#16 8 3 0).r1 = 3 ∧ (at_ 3 0x0000#16 8 3 0).r2 = 0 ∧
      (at_ 3 0x0000#16 8 3 0).pc = 3 ∧ (at_ 3 0x0000#16 8 3 0).run = .running ∧
      (at_ 3 0x0000#16 8 3 0).fault = none ∧ (at_ 3 0x0000#16 8 3 0).progLen = 4 ∧
      (at_ 3 0x0000#16 8 3 0).prog.read 3 = some 0x0000#16) := by decide
theorem witness_LoadRule :
    (255 ≤ 255 ∧ (2#4).toNat ≤ 2) ∧ 255 < 256 ∧ (255 ≤ 255 ∧ 2 < (3#4).toNat) ∧
      ((vec 0x1107#16 0 0 0).r0 = 0 ∧ (vec 0x1107#16 0 0 0).r1 = 0 ∧ (vec 0x1107#16 0 0 0).r2 = 0) := by decide
theorem witness_AddRule :
    (regNat 0 (vec 0x2001#16 250 10 0) = some 250 ∧ regNat 1 (vec 0x2001#16 250 10 0) = some 10) ∧
      regNat 2 (vec 0x2022#16 0 0 128) = some 128 ∧ (0#4 : Field) ≠ 2 ∧ 2 < (3#4).toNat ∧
      ((vec 0x2001#16 250 10 0).r0 = 250 ∧ (vec 0x2001#16 250 10 0).r1 = 10) := by decide
theorem witness_SubRule :
    (regNat 0 (vec 0x3001#16 5 10 0) = some 5 ∧ regNat 1 (vec 0x3001#16 5 10 0) = some 10) ∧
      regNat 2 (vec 0x3022#16 1 2 200) = some 200 ∧ (1#4 : Field) ≠ 2 ∧ 2 < (3#4).toNat ∧
      ((vec 0x3001#16 5 10 0).r0 = 5 ∧ (vec 0x3001#16 5 10 0).r1 = 10) := by decide
theorem witness_AddAliasing :
    ((0#4 : Field) ≠ 1 ∧ (0#4 : Field) ≠ 2 ∧ (1#4 : Field) ≠ 2) ∧ regNat 0 (vec 0x2001#16 255 1 128) = some 255 ∧
      regNat 1 (vec 0x2001#16 255 1 128) = some 1 ∧ regNat 2 (vec 0x2001#16 255 1 128) = some 128 := by decide
theorem witness_SubAliasing :
    ((0#4 : Field) ≠ 1 ∧ (0#4 : Field) ≠ 2 ∧ (1#4 : Field) ≠ 2 ∧ (1#4).toNat ≤ 2) ∧
      regNat 0 (vec 0x3001#16 0 255 3) = some 0 ∧ regNat 1 (vec 0x3001#16 0 255 3) = some 255 ∧
      regNat 2 (vec 0x3001#16 0 255 3) = some 3 := by decide
theorem witness_LogicRules :
    (readReg 2 (vec 0x4021#16 240 60 1) = some 1 ∧ readReg 1 (vec 0x4021#16 240 60 1) = some 60) ∧
      2 < (3#4).toNat ∧ ((vec 0x4001#16 240 60 0).r0 = 240 ∧ (vec 0x4001#16 240 60 0).r1 = 60) := by decide
theorem witness_LogicCornerCases :
    (2#4).toNat ≤ 2 ∧ readReg 1 (vec 0x4001#16 7 0 0) = some 0 ∧
      (readReg 0 (vec 0x5001#16 170 255 0) = some 170 ∧ readReg 1 (vec 0x5001#16 170 255 0) = some 255) := by decide
theorem witness_SkipImmediateRules :
    regNat 0 (vec 0x7007#16 7 0 0) = some 7 ∧ regNat 0 (vec 0x7007#16 6 0 0) = some 6 ∧ (6 : Nat) ≠ 7 ∧
      2 < (3#4).toNat ∧ (vec 0x7007#16 7 0 0).r0 = 7 ∧ (vec 0x7007#16 6 0 0).r0 = 6 ∧
      (vec 0x8003#16 2 0 0).r0 = 2 ∧ (vec 0x8003#16 3 0 0).r0 = 3 := by decide
theorem witness_SkipRegisterRules :
    (regNat 0 (vec 0x9001#16 5 5 0) = some 5 ∧ regNat 1 (vec 0x9001#16 5 5 0) = some 5) ∧
      (regNat 0 (vec 0x9001#16 5 6 0) = some 5 ∧ regNat 1 (vec 0x9001#16 5 6 0) = some 6 ∧ (5 : Nat) ≠ 6) ∧
      2 < (3#4).toNat ∧ (vec 0x9001#16 5 5 0).r0 = 5 ∧ (vec 0x9001#16 5 5 0).r1 = 5 ∧
      (vec 0x9001#16 5 6 0).r1 = 6 := by decide
theorem witness_RegisterFileContract :
    writeReg 2 255 (vec 0 0 0 0) = some ((vec 0 0 0 0).withR2 255) ∧ 3 ≤ (3#4).toNat := by decide
theorem witness_ControlInputs :
    ({ rst := true, step := true } : Inputs).rst = true ∧ haltedState.run = .halted ∧ faultedState.fault ≠ none := by
  decide

/-- A running state of the invariant: its second word is next. -/
theorem vec_inv (w : Word) (a b c : Byte) : (vec w a b c).Inv := by
  constructor <;> simp [vec, at_, Memory.wf]

/-- A halted and a faulted state of the invariant. -/
theorem haltedState_inv : haltedState.Inv := by
  constructor <;> simp [haltedState, vec, at_, Memory.wf]
  decide
theorem faultedState_inv : faultedState.Inv := by
  constructor <;> simp [faultedState, vec, at_, Memory.wf]
  decide

theorem witness_TerminationOutputs : haltedState.Inv ∧ faultedState.Inv := ⟨haltedState_inv, faultedState_inv⟩
theorem witness_SnapshotStrobe :
    ({ rst := true, step := false } : Inputs).rst = true ∧
      (stepEnabled (vec 0x2003#16 0 0 0) = true ∧ nextWord (vec 0x2003#16 0 0 0) = some 0x2003#16) ∧
      stepEnabled haltedState = false := by decide
theorem witness_ObservationOutputs :
    (vec 0x9000#16 0 0 0).ir = some 0x4000#16 ∧ (vec 0x9000#16 0 0 0).pc < 2 ^ 1 ∧
      stepEnabled (vec 0x9000#16 0 0 0) = true ∧ nextWord (vec 0x9000#16 0 0 0) = some 0x9000#16 := by decide
theorem witness_PcFitsEveryLegalWidth :
    (vec 0x9000#16 0 0 0).Inv ∧ 1 ≤ (vec 0x9000#16 0 0 0).progLen ∧ (vec 0x9000#16 0 0 0).progLen + 1 < 2 ^ 3 :=
  ⟨vec_inv _ _ _ _, by decide, by decide⟩
theorem witness_LaunchMeetsInv : [0x0000#16] ≠ ([] : List Word) := by decide
theorem witness_StepKeepsInv :
    ∃ t, (vec 0x9000#16 0 0 0).Inv ∧ step (vec 0x9000#16 0 0 0) = .next t := ⟨_, vec_inv _ _ _ _, rfl⟩
/-- A loaded program of one word, not yet started. -/
theorem launch_loaded (w : Word) : (launch [w]).Loaded := by
  refine ⟨Nat.le_refl 1, fun a h => ?_⟩
  have h : a < 1 := h
  obtain rfl : a = 0 := by omega
  rfl
theorem launch_inv (w : Word) : (launch [w]).Inv := by
  constructor <;> simp [launch, State.load, State.withProgram, State.reset, Memory.ofWords, Memory.wf]
theorem launch_wordsDecimal (w : Word) (h : operandsDecimal w = true) : (launch [w]).WordsDecimal := by
  intro a v hv
  change Memory.read (Memory.ofWords 0 [w]) a = some v at hv
  rw [Memory.read_ofWords, if_pos a.zero_le] at hv
  obtain rfl : v = w := by simpa using List.mem_of_getElem? hv
  exact h

theorem witness_EveryStepGoesOn : (launch [0x9000#16]).Inv ∧ (launch [0x9000#16]).Loaded :=
  ⟨launch_inv _, launch_loaded _⟩
theorem witness_StepKeepsNotMalformed :
    ∃ t, (launch [0x9999#16]).WordsDecimal ∧ (launch [0x9999#16]).fault ≠ some .malformedProgramWord ∧
      step (launch [0x9999#16]) = .next t := ⟨_, launch_wordsDecimal _ (by decide), by decide, rfl⟩
theorem witness_EveryRunGoesOn : [0x9000#16] ≠ ([] : List Word) := by decide
theorem witness_ImmediateOverflowUnreachable :
    (∃ t, (vec 0x1099#16 0 0 0).fault ≠ some .immediateOverflow ∧ step (vec 0x1099#16 0 0 0) = .next t) ∧
      ∃ t, Sys2Proof.core.run 1 (launch [0x1099#16]) = .next t := ⟨⟨_, by decide, rfl⟩, _, rfl⟩
theorem witness_WellFormedProgramNeverMalformed :
    (∀ w ∈ [0x9000#16], operandsDecimal w = true) ∧ ∃ t, Sys2Proof.core.run 1 (launch [0x9000#16]) = .next t :=
  ⟨List.forall_mem_singleton.2 (by decide), _, rfl⟩
theorem witness_RunEndsInOneOfTwoWays :
    (vec 0 0 0 0).Inv ∧ (haltedState.Inv ∧ haltedEnd haltedState = true) ∧
      (faultedState.Inv ∧ faultedEnd faultedState = true) :=
  ⟨vec_inv _ _ _ _, ⟨haltedState_inv, by decide⟩, faultedState_inv, by decide⟩

end Sys2Proof.Tests
end

/-! PROOFS. The register file (10_state R22) and the moves of `pc` (10_state R28): what the decoder, FETCH and each
instruction contribute, and the two statements settled from them. -/

namespace Sys2Proof.Machine

/-! ### The register file -/

/-- An index outside the three registers, as a list of fields and as a bound. -/
theorem notMem_registers_iff (i : Field) : i ∉ [0#4, 1#4, 2#4] ↔ 2 < i.toNat := by
  simp only [List.mem_cons, List.not_mem_nil, or_false, ← BitVec.toNat_inj, BitVec.toNat_ofNat]
  omega

/-- A register that was read has a legal index. -/
theorem le_of_readReg_eq_some {i : Field} {s : State} {v : Byte} (h : readReg i s = some v) : i.toNat ≤ 2 := by
  by_contra hi
  have hnone := (readReg_eq_none_iff i s).2 (by omega)
  simp [hnone] at h

/-- A checked read of no register raises InvalidRegister. -/
theorem withReg_of_two_lt {i : Field} (h : 2 < i.toNat) (s : State) (go : Byte → Result) :
    withReg i s go = raise .invalidRegister s := by
  simp only [withReg, (readReg_eq_none_iff i s).2 h]

/-- A checked write of no register raises InvalidRegister. -/
theorem setReg_of_two_lt {i : Field} (h : 2 < i.toNat) (v : Byte) (s : State) (go : State → Result) :
    setReg i v s go = raise .invalidRegister s := by
  simp only [setReg, (writeReg_eq_none_iff i v s).2 h]

/-- Settles O36: the laws of the register file, put together. -/
theorem registerFileContract : Obligations.RegisterFileContract := by
  refine ⟨fun i s => ?_, fun i v s => ?_, fun i v s t h => writeReg_spec h, fun i s go h => ?_, fun i v s go h => ?_⟩
  · rw [notMem_registers_iff, readReg_eq_none_iff]
  · rw [notMem_registers_iff, writeReg_eq_none_iff]
  · exact withReg_of_two_lt h s go
  · exact setReg_of_two_lt h v s go

/-! ### FETCH -/

@[simp] theorem fetched_pc (s : State) (w : Word) : (fetched s w).pc = fetchIndex s + 1 := rfl

@[simp] theorem readReg_fetched (i : Field) (s : State) (w : Word) : readReg i (fetched s w) = readReg i s := rfl

@[simp] theorem regNat_fetched (i : Field) (s : State) (w : Word) : regNat i (fetched s w) = regNat i s := rfl

theorem nextWord_eq_some_iff {s : State} {w : Word} :
    nextWord s = some w ↔ s.progLen ≠ 0 ∧ s.prog.read (fetchIndex s) = some w := by
  by_cases hL : s.progLen = 0 <;> simp [nextWord, hL]

/-- An enabled step is EXECUTE of the next word in the state FETCH leaves. -/
theorem step_of_nextWord {s : State} {w : Word} (he : stepEnabled s = true) (h : nextWord s = some w) :
    step s = executeWord w (fetched s w) := by
  obtain ⟨hL, hread⟩ := nextWord_eq_some_iff.1 h
  exact step_of_read he hL hread

/-! ### The decoder against the tables over words -/

/-- The opcode map has an instruction exactly for the opcodes 0 to 10. -/
theorem selectInstr_eq_none_iff (op k x y : Field) : selectInstr op k x y = none ↔ Config.numOpcodes ≤ op.toNat := by
  unfold selectInstr Config.numOpcodes
  split <;> simp_all
  omega

theorem decode_eq_ok_iff {w : Word} {i : Instr} :
    decode w = .ok i ↔ operandsDecimal w = true ∧ selectInstr (opOf w) (kOf w) (xOf w) (yOf w) = some i := by
  unfold decode
  split
  · next hd => split <;> simp_all
  · next hd => simp [hd]

/-- A word that is no instruction raises the cause the table gives it. -/
theorem wordFault_of_decode_error {w : Word} {e : DecodeError} (h : decode w = .error e) :
    wordFault w = some (decodeCause e) := by
  unfold decode at h
  split at h
  · next hd =>
    split at h
    · cases h
    · next hnone =>
      cases h
      simp [wordFault, hd, (selectInstr_eq_none_iff _ _ _ _).1 hnone, decodeCause]
  · next hd =>
    cases h
    simp [wordFault, hd, decodeCause]

/-- The register indices an instruction uses: `usedRegs`, read off the instruction. -/
def instrRegs : Instr → List Field
  | .halt _ _ _ => []
  | .load k _ | .skipEqImm k _ | .skipNeqImm k _ => [k]
  | .add _ x y | .sub _ x y | .or _ x y | .and _ x y | .xor _ x y | .skipEqReg _ x y | .skipNeqReg _ x y => [x, y]

/-- The condition of a skip instruction: `skipTaken`, read off the instruction. -/
def skipHolds (i : Instr) (s : State) : Bool :=
  match i with
  | .skipEqImm k nn => decide (regNat k s = some nn)
  | .skipNeqImm k nn => decide (regNat k s ≠ some nn)
  | .skipEqReg _ x y | .skipNeqReg _ x y => decide (regNat x s = regNat y s)
  | _ => false

/-- The table of used registers over words agrees with the instruction, opcode by opcode. -/
theorem usedRegs_of_decode {w : Word} {i : Instr} (h : decode w = .ok i) : usedRegs w = instrRegs i := by
  obtain ⟨-, hsel⟩ := decode_eq_ok_iff.1 h
  unfold selectInstr at hsel
  split at hsel <;> cases hsel <;> simp [usedRegs, instrRegs, *]

/-- The skip table over words agrees with the instruction, opcode by opcode. -/
theorem skipTaken_of_decode {w : Word} {i : Instr} (h : decode w = .ok i) (s : State) :
    skipTaken w s = skipHolds i s := by
  obtain ⟨-, hsel⟩ := decode_eq_ok_iff.1 h
  unfold selectInstr at hsel
  split at hsel <;> cases hsel <;> simp only [skipTaken, *] <;> rfl

theorem lt_numRegs_iff {n : Nat} : n < Config.numRegs ↔ n ≤ 2 := Nat.lt_succ_iff

/-- A word that decodes raises nothing exactly when every register index it uses is legal. -/
theorem wordFault_eq_none_iff_of_decode {w : Word} {i : Instr} (h : decode w = .ok i) :
    wordFault w = none ↔ ∀ r ∈ instrRegs i, r.toNat ≤ 2 := by
  obtain ⟨hd, hsel⟩ := decode_eq_ok_iff.1 h
  have hop : ¬ Config.numOpcodes ≤ (opOf w).toNat := by
    rw [← selectInstr_eq_none_iff (opOf w) (kOf w) (xOf w) (yOf w), hsel]
    simp
  simp [wordFault, hd, hop, usedRegs_of_decode h, lt_numRegs_iff]

/-! ### What EXECUTE adds to `pc` -/

/-- The result is a next state, with `pc` moved on by `n`. -/
def AddsToPc (n : Nat) (s : State) (r : Result) : Prop := ∃ t, r = .next t ∧ t.pc = s.pc + n

theorem raise_addsToPc (c : Cause) (s : State) : AddsToPc 0 s (raise c s) := ⟨_, rfl, rfl⟩

theorem execHalt_addsToPc (s : State) : AddsToPc 0 s (execHalt s) := ⟨_, rfl, rfl⟩

theorem execLoad_addsToPc (k : Field) (nn : Nat) (s : State) : AddsToPc 0 s (execLoad k nn s) := by
  unfold execLoad
  split
  · exact raise_addsToPc _ s
  · rcases setReg_cases k (BitVec.ofNat 8 nn) s .next with ⟨t, ht, h⟩ | ⟨-, h⟩
    · obtain ⟨-, -, hpc, -⟩ := writeReg_spec ht
      exact ⟨t, h, hpc⟩
    · exact h ▸ raise_addsToPc _ s

theorem arithmetic_addsToPc (res car : Byte → Byte → Byte) (x y : Field) (s : State) :
    AddsToPc 0 s (arithmetic res car x y s) := by
  rcases arithmetic_cases res car x y s with ⟨a, b, -, -, hx, h⟩ | ⟨-, h⟩
  · obtain ⟨t, ht, -, -, -, hpc, -⟩ := writeResultAndCarry_spec hx (res a b) (car a b) s
    exact ⟨t, h.trans ht, hpc⟩
  · exact h ▸ raise_addsToPc _ s

theorem logic_addsToPc (f : Byte → Byte → Byte) (x y : Field) (s : State) : AddsToPc 0 s (logic f x y s) := by
  rcases logic_cases f x y s with ⟨a, b, t, -, -, ht, h⟩ | ⟨-, h⟩
  · obtain ⟨-, -, hpc, -⟩ := writeReg_spec ht
    exact ⟨t, h, hpc⟩
  · exact h ▸ raise_addsToPc _ s

theorem skipIf_addsToPc (c : Bool) (s : State) : AddsToPc (if c = true then 1 else 0) s (skipIf c s) := by
  cases c
  · exact ⟨s, rfl, rfl⟩
  · exact ⟨skip s, rfl, rfl⟩

/-- A skip against an immediate adds one exactly when its index is legal and its condition, here `c`, holds. -/
theorem skipImm_addsToPc (cond : Nat → Nat → Bool) (k : Field) (nn : Nat) (s : State) {c : Bool}
    (hc : ∀ a, regNat k s = some a → cond a nn = c) :
    AddsToPc (if (∀ r ∈ [k], r.toNat ≤ 2) ∧ c = true then 1 else 0) s (skipImm cond k nn s) := by
  rcases skipImm_cases cond k nn s with ⟨a, ha, h⟩ | ⟨hk, h⟩
  · have hcond : cond a.toNat nn = c := hc _ (by simp [regNat, ha])
    have hk : k.toNat ≤ 2 := le_of_readReg_eq_some ha
    rw [h, hcond]
    simpa [hk, skipIf] using skipIf_addsToPc c s
  · rw [h]
    simpa [Nat.not_le.2 hk] using raise_addsToPc .invalidRegister s

/-- A skip on equality of two registers adds one exactly when its indices are legal and the registers are equal. -/
theorem skipReg_addsToPc (x y : Field) (s : State) :
    AddsToPc (if (∀ r ∈ [x, y], r.toNat ≤ 2) ∧ decide (regNat x s = regNat y s) = true then 1 else 0) s
      (skipReg (fun a b => decide (a = b)) x y s) := by
  rcases skipReg_cases (fun a b => decide (a = b)) x y s with ⟨a, b, ha, hb, h⟩ | ⟨hxy, h⟩
  · have hx : x.toNat ≤ 2 := le_of_readReg_eq_some ha
    have hy : y.toNat ≤ 2 := le_of_readReg_eq_some hb
    rw [h]
    simpa [hx, hy, regNat, ha, hb, BitVec.toNat_inj, skipIf] using skipIf_addsToPc (decide (a = b)) s
  · have hbad : ¬ (x.toNat ≤ 2 ∧ y.toNat ≤ 2) := by omega
    rw [h]
    simpa [hbad] using raise_addsToPc .invalidRegister s

/-- What an instruction adds to `pc`: one for a skip of legal indices whose condition holds. -/
def skipCount (i : Instr) (s : State) : Nat :=
  if (∀ r ∈ instrRegs i, r.toNat ≤ 2) ∧ skipHolds i s = true then 1 else 0

theorem skipCount_of_not_skipHolds {i : Instr} {s : State} (h : skipHolds i s = false) : skipCount i s = 0 := by
  simp [skipCount, h]

/-- An instruction that is no skip adds nothing, whatever its operands are. -/
theorem addsToPc_of_not_skipHolds {i : Instr} {s : State} {res : Result} (hi : skipHolds i s = false)
    (h : AddsToPc 0 s res) : AddsToPc (skipCount i s) s res := by
  rwa [skipCount_of_not_skipHolds hi]

/-- 10_state R28, per instruction. -/
theorem exec_addsToPc (i : Instr) (s : State) : AddsToPc (skipCount i s) s (exec i s) := by
  cases i with
  | halt k x y => exact addsToPc_of_not_skipHolds rfl (execHalt_addsToPc s)
  | load k nn => exact addsToPc_of_not_skipHolds rfl (execLoad_addsToPc k nn s)
  | add k x y => exact addsToPc_of_not_skipHolds rfl (arithmetic_addsToPc _ _ x y s)
  | sub k x y => exact addsToPc_of_not_skipHolds rfl (arithmetic_addsToPc _ _ x y s)
  | or k x y => exact addsToPc_of_not_skipHolds rfl (logic_addsToPc _ x y s)
  | and k x y => exact addsToPc_of_not_skipHolds rfl (logic_addsToPc _ x y s)
  | xor k x y => exact addsToPc_of_not_skipHolds rfl (logic_addsToPc _ x y s)
  | skipEqImm k nn =>
    exact skipImm_addsToPc (fun a n => decide (a = n)) k nn s fun a ha => by simp [skipHolds, ha]
  | skipNeqImm k nn =>
    exact skipImm_addsToPc (fun a n => decide (a ≠ n)) k nn s fun a ha => by simp [skipHolds, ha]
  | skipEqReg k x y => exact skipReg_addsToPc x y s
  | skipNeqReg k x y => exact skipReg_addsToPc x y s

/-- 10_state R28, per word: EXECUTE adds one exactly for a word that raises nothing and skips. -/
theorem executeWord_addsToPc (w : Word) (s : State) :
    AddsToPc (if wordFault w = none ∧ skipTaken w s = true then 1 else 0) s (executeWord w s) := by
  rcases executeWord_cases w s with ⟨i, hi, h⟩ | ⟨e, he, h⟩
  · simpa only [h, wordFault_eq_none_iff_of_decode hi, skipTaken_of_decode hi, skipCount] using exec_addsToPc i s
  · simpa [h, wordFault_of_decode_error he] using raise_addsToPc (decodeCause e) s

theorem skipTaken_fetched (w v : Word) (s : State) : skipTaken w (fetched s v) = skipTaken w s :=
  rfl

/-- Settles O19: FETCH leaves the wrapped index plus one, and EXECUTE adds what the word's skip adds. -/
theorem pcMovesAsListed : Obligations.PcMovesAsListed := by
  intro s w he hw
  obtain ⟨t, ht, hpc⟩ := executeWord_addsToPc w (fetched s w)
  refine ⟨t, (step_of_nextWord he hw).trans ht, ?_⟩
  rw [hpc, skipTaken_fetched, fetched_pc, fetchIndex]

end Sys2Proof.Machine

/-! PROOFS. The encodings the source gives (30_encoding R94): the words it spells out are closed facts, and what it says
of the opcodes without a row of the opcode map holds of every word. -/

namespace Sys2Proof.Machine

/-- 30_encoding R82: a word is refused as unknown exactly when its operands are decimal and the opcode map has no row for
its opcode. -/
theorem decode_eq_unknownOpcode_iff {w : Word} :
    decode w = .error .unknownOpcode ↔ operandsDecimal w = true ∧ Config.numOpcodes ≤ (opOf w).toNat := by
  rw [← selectInstr_eq_none_iff (opOf w) (kOf w) (xOf w) (yOf w)]
  unfold decode
  split
  · next hd => split <;> simp_all
  · next hd => simp [hd]

/-- Opcode 11, the leading `B`, is the first without a row of the opcode map. -/
theorem decode_of_opOf_eq_eleven {w : Word} (hop : opOf w = 11) (hd : operandsDecimal w = true) :
    decode w = .error .unknownOpcode := by
  have hle : Config.numOpcodes ≤ (opOf w).toNat := by rw [hop]; decide
  exact decode_eq_unknownOpcode_iff.2 ⟨hd, hle⟩

/-- Settles O1: each word, digit pair and character by evaluation, the words of a leading `B` by the opcode map. -/
theorem sourceEncodingsRead : Obligations.SourceEncodingsRead :=
  ⟨rfl, rfl, rfl, rfl, rfl, rfl, rfl, rfl, fun _ => decode_of_opOf_eq_eleven, rfl, rfl, rfl⟩

end Sys2Proof.Machine

/-! PROOFS. The fetch-execute cycle (40_fetch): FETCH itself (R100), the default arm of the dispatch (R105), and the run
state EXECUTE leaves (R101, 10_state R32), with what every instruction keeps beside it. -/

namespace Sys2Proof.Machine

/-! ### FETCH and the default arm -/

/-- The field-by-field table of the state after FETCH is the state the model's FETCH leaves. -/
theorem fetched_eq_afterFetch (s : State) (w : Word) : fetched s w = afterFetch s w := rfl

/-- Settles O9: FETCH finds the word at the wrapped index, and that index is below `L`. -/
theorem fetchFollowsRule : Obligations.FetchFollowsRule := by
  intro s w hL hread
  have hpos : s.progLen ≠ 0 := Nat.one_le_iff_ne_zero.1 hL
  have hlt : fetchIndex s < s.progLen := fetchIndex_lt hpos
  exact ⟨fetch_eq_next hpos hread, hlt, Nat.le_add_left 1 _, hlt⟩

/-- A word that is no instruction raises its cause. -/
theorem executeWord_of_decode_error {w : Word} {e : DecodeError} (h : decode w = .error e) (s : State) :
    executeWord w s = raise (decodeCause e) s := by
  simp only [executeWord, h]

/-- 40_fetch R105: an enabled step on a decimal word without a row of the opcode map. -/
theorem step_of_unknownOpcode {s : State} {w : Word} (he : stepEnabled s = true) (hw : nextWord s = some w)
    (hd : operandsDecimal w = true) (hop : 11 ≤ (opOf w).toNat) :
    step s = .next { afterFetch s w with fault := some .unknownOpcode } := by
  have hdec : decode w = .error .unknownOpcode := decode_eq_unknownOpcode_iff.2 ⟨hd, hop⟩
  rw [step_of_nextWord he hw, executeWord_of_decode_error hdec, fetched_eq_afterFetch]
  rfl

/-- Settles O13: the rule, and its worked example as the rule's case of a program that begins with `B000`. -/
theorem defaultArmRaisesUnknownOpcode : Obligations.DefaultArmRaisesUnknownOpcode := by
  refine ⟨fun s w => step_of_unknownOpcode, fun ws => ?_⟩
  exact step_of_unknownOpcode (s := launch (0xB000#16 :: ws)) (w := 0xB000#16) rfl rfl (by decide) (by decide)

/-! ### The run state EXECUTE leaves -/

/-- The result is a next state in run state `r`, with `ir` and the program as they were. -/
def EndsIn (r : RunState) (s : State) (res : Result) : Prop :=
  ∃ t, res = .next t ∧ t.run = r ∧ t.ir = s.ir ∧ t.progLen = s.progLen ∧ t.prog = s.prog

theorem raise_endsIn (c : Cause) (s : State) : EndsIn s.run s (raise c s) := ⟨_, rfl, rfl, rfl, rfl, rfl⟩

theorem execHalt_endsIn (s : State) : EndsIn .halted s (execHalt s) := ⟨_, rfl, rfl, rfl, rfl, rfl⟩

theorem writeReg_endsIn {i : Field} {v : Byte} {s t : State} (h : writeReg i v s = some t) :
    EndsIn s.run s (.next t) := by
  obtain ⟨-, -, -, hir, hrun, -, hlen, hprog⟩ := writeReg_spec h
  exact ⟨t, rfl, hrun, hir, hlen, hprog⟩

theorem setReg_endsIn (i : Field) (v : Byte) (s : State) : EndsIn s.run s (setReg i v s .next) := by
  rcases setReg_cases i v s .next with ⟨t, ht, h⟩ | ⟨-, h⟩
  · exact h ▸ writeReg_endsIn ht
  · exact h ▸ raise_endsIn _ s

theorem execLoad_endsIn (k : Field) (nn : Nat) (s : State) : EndsIn s.run s (execLoad k nn s) := by
  unfold execLoad
  split
  · exact raise_endsIn _ s
  · exact setReg_endsIn k _ s

theorem arithmetic_endsIn (res car : Byte → Byte → Byte) (x y : Field) (s : State) :
    EndsIn s.run s (arithmetic res car x y s) := by
  rcases arithmetic_cases res car x y s with ⟨a, b, -, -, hx, h⟩ | ⟨-, h⟩
  · obtain ⟨t, ht, -, -, -, -, hir, hrun, -, hlen, hprog⟩ := writeResultAndCarry_spec hx (res a b) (car a b) s
    exact ⟨t, h.trans ht, hrun, hir, hlen, hprog⟩
  · exact h ▸ raise_endsIn _ s

theorem logic_endsIn (f : Byte → Byte → Byte) (x y : Field) (s : State) : EndsIn s.run s (logic f x y s) := by
  rcases logic_cases f x y s with ⟨a, b, t, -, -, ht, h⟩ | ⟨-, h⟩
  · exact h ▸ writeReg_endsIn ht
  · exact h ▸ raise_endsIn _ s

theorem skipIf_endsIn (c : Bool) (s : State) : EndsIn s.run s (skipIf c s) := by
  cases c
  · exact ⟨s, rfl, rfl, rfl, rfl, rfl⟩
  · exact ⟨skip s, rfl, rfl, rfl, rfl, rfl⟩

theorem skipImm_endsIn (cond : Nat → Nat → Bool) (k : Field) (nn : Nat) (s : State) :
    EndsIn s.run s (skipImm cond k nn s) := by
  rcases skipImm_cases cond k nn s with ⟨a, -, h⟩ | ⟨-, h⟩
  · exact h ▸ skipIf_endsIn (cond a.toNat nn) s
  · exact h ▸ raise_endsIn _ s

theorem skipReg_endsIn (cond : Byte → Byte → Bool) (x y : Field) (s : State) :
    EndsIn s.run s (skipReg cond x y s) := by
  rcases skipReg_cases cond x y s with ⟨a, b, -, -, h⟩ | ⟨-, h⟩
  · exact h ▸ skipIf_endsIn (cond a b) s
  · exact h ▸ raise_endsIn _ s

/-- 10_state R32, per instruction: HALT, the row of opcode 0, ends Halted and the others keep the run state. -/
theorem exec_endsIn (i : Instr) (s : State) : EndsIn (if i.opcode = 0 then .halted else s.run) s (exec i s) := by
  cases i with
  | halt k x y => exact execHalt_endsIn s
  | load k nn => exact execLoad_endsIn k nn s
  | add k x y => exact arithmetic_endsIn _ _ x y s
  | sub k x y => exact arithmetic_endsIn _ _ x y s
  | or k x y => exact logic_endsIn _ x y s
  | and k x y => exact logic_endsIn _ x y s
  | xor k x y => exact logic_endsIn _ x y s
  | skipEqImm k nn => exact skipImm_endsIn (fun a n => decide (a = n)) k nn s
  | skipNeqImm k nn => exact skipImm_endsIn (fun a n => decide (a ≠ n)) k nn s
  | skipEqReg k x y => exact skipReg_endsIn _ x y s
  | skipNeqReg k x y => exact skipReg_endsIn _ x y s

/-- The instruction a word decodes to is of the row its opcode field names. -/
theorem opcode_of_decode {w : Word} {i : Instr} (h : decode w = .ok i) : i.opcode = opOf w := by
  obtain ⟨-, hsel⟩ := decode_eq_ok_iff.1 h
  unfold selectInstr at hsel
  split at hsel <;> cases hsel <;> simp [Instr.opcode, ← BitVec.toNat_inj, *]

theorem decode_of_opOf_eq_zero {w : Word} (hd : operandsDecimal w = true) (hop : opOf w = 0) :
    decode w = .ok (.halt (kOf w) (xOf w) (yOf w)) :=
  decode_eq_ok_iff.2 ⟨hd, by rw [hop]; rfl⟩

/-- 10_state R32, per word: EXECUTE ends Halted exactly on a decimal word of opcode 0. -/
theorem executeWord_endsIn (w : Word) (s : State) :
    EndsIn (if operandsDecimal w = true ∧ opOf w = 0 then .halted else s.run) s (executeWord w s) := by
  rcases executeWord_cases w s with ⟨i, hi, h⟩ | ⟨e, he, h⟩
  · obtain ⟨hd, -⟩ := decode_eq_ok_iff.1 hi
    simpa [h, hd, opcode_of_decode hi] using exec_endsIn i s
  · have hnot : ¬ (operandsDecimal w = true ∧ opOf w = 0) := fun ⟨hd, hop⟩ => by
      simp [decode_of_opOf_eq_zero hd hop] at he
    rw [h, if_neg hnot]
    exact raise_endsIn _ s

/-! ### The run state a step leaves -/

theorem stepEnabled_eq_true_iff {s : State} : stepEnabled s = true ↔ s.run ≠ .halted ∧ s.fault = none := by
  simp [stepEnabled]

/-- 40_fetch R101: FETCH of an enabled core leaves it Running, from Init too. -/
theorem fetched_run_of_enabled {s : State} (he : stepEnabled s = true) (w : Word) :
    (fetched s w).run = .running := by
  obtain ⟨hrun, -⟩ := stepEnabled_eq_true_iff.1 he
  cases hs : s.run with
  | init => simp [fetched, hs]
  | running => simp [fetched, hs]
  | halted => exact absurd hs hrun

/-- 70_reset R211 for a halted core: a step request changes nothing. -/
theorem step_of_halted {s : State} (h : s.run = .halted) : step s = .next s :=
  step_disabled (by simp [stepEnabled, h])

/-- Settles O18: FETCH leaves Running and EXECUTE moves on from there; a halted core takes no step. -/
theorem runStateTransitions : Obligations.RunStateTransitions := by
  constructor
  · intro s w he hw
    obtain ⟨t, ht, hrun, -⟩ := executeWord_endsIn w (fetched s w)
    rw [fetched_run_of_enabled he] at hrun
    exact ⟨t, (step_of_nextWord he hw).trans ht, hrun⟩
  · intro s t hs ht
    cases (step_of_halted hs).symm.trans ht
    exact hs

end Sys2Proof.Machine

/-! PROOFS. HALT (41_halt R120): its words, its one effect, the step that runs it, and the step requests after it
(70_reset R211). -/

namespace Sys2Proof.Machine

/-! ### The words of an opcode -/

/-- A row of the opcode map that keeps its three operand fields gives format N or XY words (30_encoding R73, R80). -/
theorem encodesFields_of_selectInstr {op : Field} {mk : Field → Field → Field → Instr}
    (hsel : ∀ k x y, selectInstr op k x y = some (mk k x y)) : EncodesFields op mk := by
  intro k x y hk hx hy
  have hd : operandsDecimal (mkWord op k x y) = true := by simp [hk, hx, hy]
  exact decode_eq_ok_iff.2 ⟨hd, by simp [hsel]⟩

/-- 40_fetch R103: the operand check comes before the dispatch, whatever the opcode is. -/
theorem decode_of_not_operandsDecimal {w : Word} (hd : operandsDecimal w = false) :
    decode w = .error .malformedProgramWord := by
  simp [decode, hd]

/-! ### A step on a HALT word -/

theorem exec_halt (k x y : Field) (s : State) : exec (.halt k x y) s = .next { s with run := .halted } := rfl

theorem executeWord_of_decode_ok {w : Word} {i : Instr} (h : decode w = .ok i) (s : State) :
    executeWord w s = exec i s := by
  simp only [executeWord, h]

/-- 41_halt R120: an enabled step on a decimal word of opcode 0. -/
theorem step_of_halt {s : State} {w : Word} (he : stepEnabled s = true) (hw : nextWord s = some w)
    (hd : operandsDecimal w = true) (hop : opOf w = 0) :
    step s = .next { afterFetch s w with run := .halted } := by
  rw [step_of_nextWord he hw, executeWord_of_decode_ok (decode_of_opOf_eq_zero hd hop), exec_halt,
    fetched_eq_afterFetch]

/-- 41_halt R120, the worked example: the last of four words is `0000`. -/
theorem step_of_halt_in_fourth_word {s : State} (hpc : s.pc = 3) (hrun : s.run = .running) (hfault : s.fault = none)
    (hlen : s.progLen = 4) (hread : s.prog.read 3 = some 0x0000#16) :
    step s = .next { s with pc := 4, ir := some 0x0000#16, run := .halted } := by
  have he : stepEnabled s = true := stepEnabled_eq_true_iff.2 ⟨by simp [hrun], hfault⟩
  have hw : nextWord s = some 0x0000#16 :=
    nextWord_eq_some_iff.2 ⟨by simp [hlen], by simp [fetchIndex, hpc, hlen, hread]⟩
  simpa [afterFetch, hpc, hlen] using step_of_halt he hw (by decide) (by decide)

/-! ### The snapshot, and the requests after the step -/

/-- 10_state R41: an enabled step that leaves the latch clear strobes the snapshot. -/
theorem snapStrobe_of_step {s t : State} (he : stepEnabled s = true) (h : step s = .next t) (hfault : t.fault = none) :
    snapStrobe { rst := false, step := true } s = true := by
  simp [snapStrobe, he, h, hfault]

/-- A state that a step leaves as it is stays so under any number of step requests. -/
theorem run_of_step_eq_self {s : State} (h : step s = .next s) (n : Nat) : Sys2Proof.core.run n s = .next s := by
  induction n with
  | zero => exact run_zero s
  | succ n ih => rw [run_succ_of_next n h, ih]

/-- Settles O25: each clause is one of the lemmas above; the later requests find a halted core. -/
theorem haltRule : Obligations.HaltRule := by
  refine ⟨encodesFields_of_selectInstr fun _ _ _ => rfl, fun w _ => decode_of_not_operandsDecimal, exec_halt, ?_, ?_⟩
  · intro s w he hw hd hop
    obtain ⟨-, hfault⟩ := stepEnabled_eq_true_iff.1 he
    have hstep := step_of_halt he hw hd hop
    exact ⟨hstep, snapStrobe_of_step he hstep hfault, fun n => ⟨rfl, run_of_step_eq_self (step_of_halted rfl) n⟩⟩
  · intro s _ _ _
    exact step_of_halt_in_fourth_word

end Sys2Proof.Machine

/-! PROOFS. LOAD (42_load R125): its words, its two exceptions in their order (R126), and its one write. -/

namespace Sys2Proof.Machine

/-! ### The words of an immediate opcode -/

/-- A row of the opcode map that takes `k` and the decimal pair gives format KI words (30_encoding R73, R76, R80). -/
theorem encodesImm_of_selectInstr {op : Field} {mk : Field → Nat → Instr}
    (hsel : ∀ k x y, selectInstr op k x y = some (mk k (immediate x y))) : EncodesImm op mk := by
  intro k x y hk hx hy
  have hd : operandsDecimal (mkWord op k x y) = true := by simp [hk, hx, hy]
  exact decode_eq_ok_iff.2 ⟨hd, by simp [hsel, immediate]⟩

/-! ### A checked write that ends an instruction -/

/-- The value at its index, every other register and everything else as before. -/
theorem setReg_next_of_le {i : Field} (h : i.toNat ≤ 2) (v : Byte) (s : State) :
    ∃ t, setReg i v s .next = .next t ∧ readReg i t = some v ∧ KeepsRegsBut [i] s t ∧ KeepsControl s t := by
  obtain ⟨t, ht⟩ := writeReg_of_le h v s
  obtain ⟨hread, hother, hcontrol⟩ := writeReg_spec ht
  exact ⟨t, by simp only [setReg, ht], hread, fun j hj => hother j (List.ne_of_not_mem_cons hj), hcontrol⟩

/-! ### The range check and the write -/

/-- 42_load R126: the range check stands before the index check, so it decides whatever `k` is. -/
theorem exec_load_of_lt {nn : Nat} (h : 255 < nn) (k : Field) (s : State) :
    exec (.load k nn) s = raise .immediateOverflow s :=
  if_pos h

/-- Past the range check LOAD is one checked write. -/
theorem exec_load_of_le {nn : Nat} (h : nn ≤ 255) (k : Field) (s : State) :
    exec (.load k nn) s = setReg k (BitVec.ofNat 8 nn) s .next :=
  if_neg (Nat.not_lt.2 h)

/-- 42_load R125 for a legal register and an immediate in range: nothing is lost in narrowing `nn` to a byte. -/
theorem exec_load_spec {k : Field} {nn : Nat} (hn : nn ≤ 255) (hk : k.toNat ≤ 2) (s : State) :
    ∃ t, exec (.load k nn) s = .next t ∧ regNat k t = some nn ∧ KeepsRegsBut [k] s t ∧ KeepsControl s t := by
  obtain ⟨t, ht, hread, hkeep⟩ := setReg_next_of_le hk (BitVec.ofNat 8 nn) s
  have hbyte : (BitVec.ofNat 8 nn).toNat = nn := Nat.mod_eq_of_lt (Nat.lt_succ_of_le hn)
  exact ⟨t, (exec_load_of_le hn k s).trans ht, by simp only [regNat, hread, Option.map_some, hbyte], hkeep⟩

/-- 42_load R125, the worked example: `LOAD 1, 7`, whatever the registers hold. -/
theorem executeWord_load_one_seven (s : State) : executeWord 0x1107#16 s = .next { s with r1 := 7 } := by
  have hdec : decode 0x1107#16 = .ok (.load 1 7) := rfl
  rw [executeWord_of_decode_ok hdec, exec_load_of_le (by decide)]
  rfl

/-- Settles O26: the range check splits the cases, and below it the index of the one checked write does. -/
theorem loadRule : Obligations.LoadRule := by
  refine ⟨encodesImm_of_selectInstr fun _ _ _ => rfl, fun k nn s hn hk => exec_load_spec hn hk s,
    fun k nn s hn => exec_load_of_lt hn k s, fun k nn s hn hk => ?_, fun s _ _ _ => executeWord_load_one_seven s⟩
  rw [exec_load_of_le hn, setReg_of_two_lt hk]
  rfl

end Sys2Proof.Machine

/-! PROOFS. ADD and SUB (43_add_sub R130 to R133): the operand shape they share with the other format XY instructions,
the one rule of both, their integers, and what coinciding operands make of the rule. -/

namespace Sys2Proof.Machine

/-! ### Two source registers -/

theorem regNat_eq_some_iff {i : Field} {s : State} {n : Nat} :
    regNat i s = some n ↔ ∃ v, readReg i s = some v ∧ v.toNat = n := by
  simp only [regNat, Option.map_eq_some_iff]

/-- A legal index holds some integer. -/
theorem regNat_of_le {i : Field} (h : i.toNat ≤ 2) (s : State) : ∃ n, regNat i s = some n := by
  obtain ⟨v, hv⟩ := readReg_of_le h s
  exact ⟨v.toNat, regNat_eq_some_iff.2 ⟨v, hv, rfl⟩⟩

/-- Two sources that can be read: the instruction goes on with their values. -/
theorem withPair_of_readReg {x y : Field} {s : State} {a b : Byte} (ha : readReg x s = some a)
    (hb : readReg y s = some b) (go : Byte → Byte → Result) : withPair x y s go = go a b := by
  simp only [withPair, withReg, ha, hb]

/-- A source that is no register, first or second: the instruction raises InvalidRegister. -/
theorem withPair_of_two_lt {x y : Field} (h : 2 < x.toNat ∨ 2 < y.toNat) (s : State) (go : Byte → Byte → Result) :
    withPair x y s go = raise .invalidRegister s := by
  rcases withPair_cases x y s go with ⟨a, b, ha, hb, -⟩ | ⟨-, hraise⟩
  · have hx : x.toNat ≤ 2 := le_of_readReg_eq_some ha
    have hy : y.toNat ≤ 2 := le_of_readReg_eq_some hb
    omega
  · exact hraise

/-- An instruction that begins by reading `x` and `y` has the exceptions of a register pair. -/
theorem pairRaises_of_withPair {mk : Field → Field → Field → Instr}
    (hexec : ∀ k x y s, ∃ go, exec (mk k x y) s = withPair x y s go) : PairRaises mk := by
  intro k x y s h
  obtain ⟨go, hgo⟩ := hexec k x y s
  rw [hgo, withPair_of_two_lt h]
  rfl

/-! ### The rule of an arithmetic instruction -/

/-- Reading legal sources, the arithmetic shape leaves the flag in `R[2]` and, unless `x = 2`, the result in `R[x]`. -/
theorem arithmetic_spec (res car : Byte → Byte → Byte) {x y : Field} {s : State} {a b : Byte}
    (ha : readReg x s = some a) (hb : readReg y s = some b) :
    ∃ t, arithmetic res car x y s = .next t ∧ readReg 2 t = some (car a b) ∧
      (x ≠ 2 → readReg x t = some (res a b)) ∧ KeepsRegsBut [x, 2] s t ∧ KeepsControl s t := by
  obtain ⟨t, ht, hflag, hres, hother, hcontrol⟩ :=
    writeResultAndCarry_spec (le_of_readReg_eq_some ha) (res a b) (car a b) s
  have hkeep : KeepsRegsBut [x, 2] s t := fun j hj => by
    obtain ⟨hjx, hj2⟩ : j ≠ x ∧ j ≠ 2 := by simpa using hj
    exact hother j hjx hj2
  exact ⟨t, (withPair_of_readReg ha hb _).trans ht, hflag, hres, hkeep, hcontrol⟩

/-- An instruction of the arithmetic shape follows the rule with `f` and `flag` once these are what its byte
operations compute, as integers. -/
theorem arithRule_of_arithmetic {mk : Field → Field → Field → Instr} {res car : Byte → Byte → Byte}
    {f flag : Nat → Nat → Nat} (hexec : ∀ k x y s, exec (mk k x y) s = arithmetic res car x y s)
    (hf : ∀ a b, (res a b).toNat = f a.toNat b.toNat) (hflag : ∀ a b, (car a b).toNat = flag a.toNat b.toNat) :
    ArithRule mk f flag := by
  intro k x y s m n hm hn
  obtain ⟨a, ha, rfl⟩ := regNat_eq_some_iff.1 hm
  obtain ⟨b, hb, rfl⟩ := regNat_eq_some_iff.1 hn
  obtain ⟨t, ht, hcar, hres, hkeep⟩ := arithmetic_spec res car ha hb
  exact ⟨t, (hexec k x y s).trans ht, regNat_eq_some_iff.2 ⟨_, hcar, hflag a b⟩,
    fun hx => regNat_eq_some_iff.2 ⟨_, hres hx, hf a b⟩, hkeep⟩

/-- A destination other than `R[2]` keeps the result beside the flag, whatever `y` is. -/
theorem ArithRule.result_and_flag {mk : Field → Field → Field → Instr} {f flag : Nat → Nat → Nat}
    (h : ArithRule mk f flag) (k : Field) {x y : Field} {s : State} {a b : Nat} (hx : x ≠ 2)
    (ha : regNat x s = some a) (hb : regNat y s = some b) :
    ∃ t, exec (mk k x y) s = .next t ∧ regNat x t = some (f a b) ∧ regNat 2 t = some (flag a b) := by
  obtain ⟨t, ht, hflag, hres, -⟩ := h k x y s a b ha hb
  exact ⟨t, ht, hres hx, hflag⟩

/-- The flag stands in `R[2]` at the end, with `R[2]` a source, the destination, or both. -/
theorem ArithRule.flag_wins {mk : Field → Field → Field → Instr} {f flag : Nat → Nat → Nat}
    (h : ArithRule mk f flag) (k : Field) {x y : Field} {s : State} {a b : Nat}
    (ha : regNat x s = some a) (hb : regNat y s = some b) :
    ∃ t, exec (mk k x y) s = .next t ∧ regNat 2 t = some (flag a b) := by
  obtain ⟨t, ht, hflag, -⟩ := h k x y s a b ha hb
  exact ⟨t, ht, hflag⟩

/-! ### The byte operations as integers -/

/-- `& 0xFF` is the remainder by 256. -/
theorem toNat_addResult (a b : Byte) : (addResult a b).toNat = (a.toNat + b.toNat) % 256 := by
  have hmask : addSum a b &&& 0xFF = addSum a b % 256 := Nat.and_two_pow_sub_one_eq_mod (addSum a b) 8
  rw [addResult, hmask, BitVec.toNat_ofNat, Nat.mod_mod, addSum]

theorem toNat_addCarry (a b : Byte) : (addCarry a b).toNat = if 255 < a.toNat + b.toNat then 1 else 0 :=
  apply_ite BitVec.toNat _ _ _

theorem subDiff_neg_iff (a b : Byte) : subDiff a b < 0 ↔ a.toNat < b.toNat := by
  unfold subDiff
  omega

/-- Both branches of SUB are the remainder of the difference by 256. -/
theorem toNat_subResult (a b : Byte) : (subResult a b).toNat = (a.toNat + 256 - b.toNat) % 256 := by
  have ha := a.isLt
  have hb := b.isLt
  simp only [subResult, subDiff_neg_iff]
  by_cases h : a.toNat < b.toNat
  · rw [if_pos h, BitVec.toNat_ofInt, subDiff]
    omega
  · rw [if_neg h, BitVec.toNat_ofInt, subDiff]
    omega

theorem toNat_subBorrow (a b : Byte) : (subBorrow a b).toNat = if a.toNat < b.toNat then 1 else 0 := by
  simp only [subBorrow, subDiff_neg_iff]
  exact apply_ite BitVec.toNat _ _ _

/-- The remainder of a sum of two bytes, by whether it carries. -/
theorem toNat_add_mod_eq_ite (a b : Byte) : (a.toNat + b.toNat) % 256 =
    if 255 < a.toNat + b.toNat then a.toNat + b.toNat - 256 else a.toNat + b.toNat := by
  have ha := a.isLt
  have hb := b.isLt
  split <;> omega

/-- The remainder of a difference of two bytes, by whether it borrows. -/
theorem toNat_sub_mod_eq_ite (a b : Byte) : (a.toNat + 256 - b.toNat) % 256 =
    if a.toNat < b.toNat then 256 + a.toNat - b.toNat else a.toNat - b.toNat := by
  have ha := a.isLt
  have hb := b.isLt
  split <;> omega

/-! ### ADD -/

theorem exec_add (k x y : Field) (s : State) : exec (.add k x y) s = arithmetic addResult addCarry x y s := rfl

/-- 43_add_sub R130, the worked example: `ADD 0, 1` on 250 and 10. -/
theorem executeWord_add_zero_one {s : State} (h0 : s.r0 = 250) (h1 : s.r1 = 10) :
    executeWord 0x2001#16 s = .next { s with r0 := 4, r2 := 1 } := by
  have hdec : decode 0x2001#16 = .ok (.add 0 0 1) := rfl
  have ha : readReg 0 s = some 250 := congrArg some h0
  have hb : readReg 1 s = some 10 := congrArg some h1
  rw [executeWord_of_decode_ok hdec, exec_add, arithmetic, withPair_of_readReg ha hb]
  rfl

/-- Settles O27: ADD is of the arithmetic shape, and its byte operations compute the rule's sum and carry. -/
theorem addRule : Obligations.AddRule := by
  refine ⟨encodesFields_of_selectInstr fun _ _ _ => rfl,
    arithRule_of_arithmetic exec_add (fun a b => ?_) toNat_addCarry,
    pairRaises_of_withPair fun k x y s => ⟨_, exec_add k x y s⟩, fun s => executeWord_add_zero_one⟩
  rw [toNat_addResult, toNat_add_mod_eq_ite]

/-- The rule of ADD with the sum as a remainder. -/
theorem arithRule_add_mod : ArithRule .add (fun a b => (a + b) % 256) (fun a b => if 255 < a + b then 1 else 0) :=
  arithRule_of_arithmetic exec_add toNat_addResult toNat_addCarry

/-- Doubling carries from 128 on. -/
theorem lt_two_mul_iff (a : Nat) : 255 < 2 * a ↔ 128 ≤ a := by
  omega

/-- Settles O29: the rows without `x = 2` keep sum and carry, the rows with it the carry; equal sources double. -/
theorem addAliasing : Obligations.AddAliasing := by
  intro k s
  refine ⟨fun x y a b _ hx _ ha hb => ?_, fun x a c hx ha hc => ?_, fun y b c _ hb hc => ?_, fun x a hx ha => ?_,
    fun c hc => ?_⟩
  · exact arithRule_add_mod.result_and_flag k hx ha hb
  · exact arithRule_add_mod.result_and_flag k hx ha hc
  · exact arithRule_add_mod.flag_wins k hc hb
  · simpa only [← two_mul, lt_two_mul_iff] using arithRule_add_mod.result_and_flag k hx ha ha
  · simpa only [← two_mul, lt_two_mul_iff] using arithRule_add_mod.flag_wins k hc hc

/-! ### SUB -/

theorem exec_sub (k x y : Field) (s : State) : exec (.sub k x y) s = arithmetic subResult subBorrow x y s := rfl

/-- 43_add_sub R131, the worked example: `SUB 0, 1` on 5 and 10. -/
theorem executeWord_sub_zero_one {s : State} (h0 : s.r0 = 5) (h1 : s.r1 = 10) :
    executeWord 0x3001#16 s = .next { s with r0 := 251, r2 := 1 } := by
  have hdec : decode 0x3001#16 = .ok (.sub 0 0 1) := rfl
  have ha : readReg 0 s = some 5 := congrArg some h0
  have hb : readReg 1 s = some 10 := congrArg some h1
  rw [executeWord_of_decode_ok hdec, exec_sub, arithmetic, withPair_of_readReg ha hb]
  rfl

/-- Settles O28: SUB is of the arithmetic shape, and its byte operations compute the rule's difference and borrow. -/
theorem subRule : Obligations.SubRule := by
  refine ⟨encodesFields_of_selectInstr fun _ _ _ => rfl,
    arithRule_of_arithmetic exec_sub (fun a b => ?_) toNat_subBorrow,
    pairRaises_of_withPair fun k x y s => ⟨_, exec_sub k x y s⟩, fun s => executeWord_sub_zero_one⟩
  rw [toNat_subResult, toNat_sub_mod_eq_ite]

/-- The rule of SUB with the difference as a remainder. -/
theorem arithRule_sub_mod : ArithRule .sub (fun a b => (a + 256 - b) % 256) (fun a b => if a < b then 1 else 0) :=
  arithRule_of_arithmetic exec_sub toNat_subResult toNat_subBorrow

/-- Settles O30: the rows without `x = 2` keep difference and borrow, the rows with it the borrow; equal sources differ
by 0 and never borrow. -/
theorem subAliasing : Obligations.SubAliasing := by
  intro k s
  refine ⟨fun x y a b _ hx _ ha hb => ?_, fun x a c hx ha hc => ?_, fun y b c _ hb hc => ?_, fun x hx hle => ?_, ?_⟩
  · exact arithRule_sub_mod.result_and_flag k hx ha hb
  · exact arithRule_sub_mod.result_and_flag k hx ha hc
  · exact arithRule_sub_mod.flag_wins k hc hb
  · obtain ⟨a, ha⟩ := regNat_of_le hle s
    simpa using arithRule_sub_mod.result_and_flag k hx ha ha
  · obtain ⟨c, hc⟩ := regNat_of_le (i := 2) (by decide) s
    simpa using arithRule_sub_mod.flag_wins k hc hc

end Sys2Proof.Machine

/-! PROOFS. OR, AND and XOR (44_logic R140 to R142): the one rule of the logic shape, and the worked examples. -/

namespace Sys2Proof.Machine

/-! ### The rule of a logic instruction -/

theorem exec_or (k x y : Field) (s : State) : exec (.or k x y) s = logic (fun a b => a ||| b) x y s := rfl

theorem exec_and (k x y : Field) (s : State) : exec (.and k x y) s = logic (fun a b => a &&& b) x y s := rfl

theorem exec_xor (k x y : Field) (s : State) : exec (.xor k x y) s = logic (fun a b => a ^^^ b) x y s := rfl

/-- Reading legal sources, the logic shape is one checked write of the result to `R[x]`. -/
theorem logic_of_readReg (f : Byte → Byte → Byte) {x y : Field} {s : State} {a b : Byte} (ha : readReg x s = some a)
    (hb : readReg y s = some b) : logic f x y s = setReg x (f a b) s .next :=
  withPair_of_readReg ha hb _

/-- An instruction of the logic shape follows the rule: its one write leaves `R[2]` alone unless `x = 2`. -/
theorem logicRule_of_logic {mk : Field → Field → Field → Instr} {f : Byte → Byte → Byte}
    (hexec : ∀ k x y s, exec (mk k x y) s = logic f x y s) : LogicRule mk f := by
  intro k x y s a b ha hb
  rw [hexec, logic_of_readReg f ha hb]
  exact setReg_next_of_le (le_of_readReg_eq_some ha) (f a b) s

/-- An instruction of the logic shape begins by reading its pair of registers. -/
theorem pairRaises_of_logic {mk : Field → Field → Field → Instr} {f : Byte → Byte → Byte}
    (hexec : ∀ k x y s, exec (mk k x y) s = logic f x y s) : PairRaises mk :=
  pairRaises_of_withPair fun k x y s => ⟨_, hexec k x y s⟩

/-! ### The worked examples -/

/-- The operands of the worked examples, `x = 0` and `y = 1`: the whole next state. -/
theorem logic_zero_one (f : Byte → Byte → Byte) (s : State) :
    logic f 0 1 s = .next { s with r0 := f s.r0 s.r1 } := rfl

/-- 44_logic R140 to R142, the worked examples: a word for `x = 0` and `y = 1`, run on 240 and 60. -/
theorem executeWord_logic_zero_one {w : Word} {i : Instr} {f : Byte → Byte → Byte} (hdec : decode w = .ok i)
    (hexec : ∀ s, exec i s = logic f 0 1 s) {s : State} (h0 : s.r0 = 240) (h1 : s.r1 = 60) :
    executeWord w s = .next { s with r0 := f 240 60 } := by
  rw [executeWord_of_decode_ok hdec, hexec, logic_zero_one, h0, h1]

/-- Settles O32: the three instructions are of the logic shape, which gives the rule and the exceptions of each. -/
theorem logicRules : Obligations.LogicRules := by
  refine ⟨encodesFields_of_selectInstr fun _ _ _ => rfl, logicRule_of_logic exec_or, pairRaises_of_logic exec_or,
    encodesFields_of_selectInstr fun _ _ _ => rfl, logicRule_of_logic exec_and, pairRaises_of_logic exec_and,
    encodesFields_of_selectInstr fun _ _ _ => rfl, logicRule_of_logic exec_xor, pairRaises_of_logic exec_xor,
    fun s h0 h1 => ⟨?_, ?_, ?_⟩⟩
  · exact executeWord_logic_zero_one (i := .or 0 0 1) rfl (exec_or 0 0 1) h0 h1
  · exact executeWord_logic_zero_one (i := .and 0 0 1) rfl (exec_and 0 0 1) h0 h1
  · exact executeWord_logic_zero_one (i := .xor 0 0 1) rfl (exec_xor 0 0 1) h0 h1

end Sys2Proof.Machine

/-! PROOFS. The four skips (45_skip R150 to R154): the shared action, the rule of each operand shape, and the worked
examples as its cases. -/

namespace Sys2Proof.Machine

/-! ### The skip action -/

/-- 45_skip R150, a condition that holds: one more on `pc`, with no wrap. -/
theorem skipIf_of_true {c : Bool} (h : c = true) (s : State) : skipIf c s = .next { s with pc := s.pc + 1 } := by
  rw [h]
  rfl

/-- 45_skip R150, a condition that fails. -/
theorem skipIf_of_not_true {c : Bool} (h : ¬ c = true) (s : State) : skipIf c s = .next s := by
  rw [skipIf, if_neg h]

/-! ### Skips against an immediate -/

theorem exec_skipEqImm (k : Field) (nn : Nat) (s : State) :
    exec (.skipEqImm k nn) s = skipImm (fun a n => decide (a = n)) k nn s := rfl

theorem exec_skipNeqImm (k : Field) (nn : Nat) (s : State) :
    exec (.skipNeqImm k nn) s = skipImm (fun a n => decide (a ≠ n)) k nn s := rfl

/-- Reading a legal register, the comparison is of its integer with the immediate. -/
theorem skipImm_of_regNat (test : Nat → Nat → Bool) {k : Field} {s : State} {a : Nat} (ha : regNat k s = some a)
    (nn : Nat) : skipImm test k nn s = skipIf (test a nn) s := by
  obtain ⟨v, hv, rfl⟩ := regNat_eq_some_iff.1 ha
  simp only [skipImm, withReg, hv]

/-- An instruction of the immediate skip shape follows the rule of the condition its test decides. -/
theorem skipImmRule_of_skipImm {mk : Field → Nat → Instr} {test : Nat → Nat → Bool} {cond : Nat → Nat → Prop}
    (hexec : ∀ k nn s, exec (mk k nn) s = skipImm test k nn s) (htest : ∀ a nn, test a nn = true ↔ cond a nn) :
    SkipImmRule mk cond := by
  refine ⟨fun k nn s a ha hc => ?_, fun k nn s a ha hc => ?_, fun k nn s hk => ?_⟩
  · rw [hexec, skipImm_of_regNat test ha, skipIf_of_true ((htest a nn).2 hc)]
  · rw [hexec, skipImm_of_regNat test ha, skipIf_of_not_true (mt (htest a nn).1 hc)]
  · rw [hexec, skipImm, withReg_of_two_lt hk]
    rfl

/-- 45_skip R151: `nn` is any number, with no range check. -/
theorem skipImmRule_skipEqImm : SkipImmRule .skipEqImm (fun a nn => a = nn) :=
  skipImmRule_of_skipImm exec_skipEqImm fun _ _ => decide_eq_true_iff

/-- 45_skip R152. -/
theorem skipImmRule_skipNeqImm : SkipImmRule .skipNeqImm (fun a nn => a ≠ nn) :=
  skipImmRule_of_skipImm exec_skipNeqImm fun _ _ => decide_eq_true_iff

/-- The rule on a word that tests `R[0]`, with a condition that holds. -/
theorem SkipImmRule.executeWord_of_cond {mk : Field → Nat → Instr} {cond : Nat → Nat → Prop}
    (rule : SkipImmRule mk cond) {w : Word} {nn : Nat} (hdec : decode w = .ok (mk 0 nn)) {s : State}
    (h : cond s.r0.toNat nn) : executeWord w s = .next { s with pc := s.pc + 1 } := by
  obtain ⟨htaken, -, -⟩ := rule
  rw [executeWord_of_decode_ok hdec, htaken 0 nn s s.r0.toNat rfl h]

/-- The rule on a word that tests `R[0]`, with a condition that fails. -/
theorem SkipImmRule.executeWord_of_not_cond {mk : Field → Nat → Instr} {cond : Nat → Nat → Prop}
    (rule : SkipImmRule mk cond) {w : Word} {nn : Nat} (hdec : decode w = .ok (mk 0 nn)) {s : State}
    (h : ¬ cond s.r0.toNat nn) : executeWord w s = .next s := by
  obtain ⟨-, hnotTaken, -⟩ := rule
  rw [executeWord_of_decode_ok hdec, hnotTaken 0 nn s s.r0.toNat rfl h]

/-- Settles O34: both instructions are of the immediate skip shape, and the worked examples are cases of its rule. -/
theorem skipImmediateRules : Obligations.SkipImmediateRules := by
  refine ⟨encodesImm_of_selectInstr fun _ _ _ => rfl, skipImmRule_skipEqImm,
    encodesImm_of_selectInstr fun _ _ _ => rfl, skipImmRule_skipNeqImm,
    fun s => ⟨fun h => ?_, fun h => ?_, fun h => ?_, fun h => ?_⟩⟩
  · exact skipImmRule_skipEqImm.executeWord_of_cond (nn := 7) rfl (by simp [h])
  · exact skipImmRule_skipEqImm.executeWord_of_not_cond (nn := 7) rfl (by simp [h])
  · exact skipImmRule_skipNeqImm.executeWord_of_cond (nn := 3) rfl (by simp [h])
  · exact skipImmRule_skipNeqImm.executeWord_of_not_cond (nn := 3) rfl (by simp [h])

/-! ### Skips against a register -/

theorem exec_skipEqReg (k x y : Field) (s : State) :
    exec (.skipEqReg k x y) s = skipReg (fun a b => decide (a = b)) x y s := rfl

/-- 45_skip R154: the test is of equality, as for SKIP_EQ_REG. -/
theorem exec_skipNeqReg (k x y : Field) (s : State) :
    exec (.skipNeqReg k x y) s = skipReg (fun a b => decide (a = b)) x y s := rfl

/-- Reading legal registers, bytes are equal exactly when their integers are. -/
theorem skipReg_of_regNat {x y : Field} {s : State} {a b : Nat} (ha : regNat x s = some a) (hb : regNat y s = some b) :
    skipReg (fun a b => decide (a = b)) x y s = skipIf (decide (a = b)) s := by
  obtain ⟨v, hv, rfl⟩ := regNat_eq_some_iff.1 ha
  obtain ⟨u, hu, rfl⟩ := regNat_eq_some_iff.1 hb
  simp only [skipReg, withPair_of_readReg hv hu, BitVec.toNat_inj]

/-- An instruction that skips on equality of two registers follows the rule. -/
theorem skipRegRule_of_skipReg {mk : Field → Field → Field → Instr}
    (hexec : ∀ k x y s, exec (mk k x y) s = skipReg (fun a b => decide (a = b)) x y s) : SkipRegRule mk := by
  refine ⟨fun k x y s a b ha hb hab => ?_, fun k x y s a b ha hb hab => ?_,
    pairRaises_of_withPair fun k x y s => ⟨_, hexec k x y s⟩⟩
  · rw [hexec, skipReg_of_regNat ha hb, skipIf_of_true (decide_eq_true hab)]
  · rw [hexec, skipReg_of_regNat ha hb, skipIf_of_not_true (mt of_decide_eq_true hab)]

/-- 45_skip R153. -/
theorem skipRegRule_skipEqReg : SkipRegRule .skipEqReg := skipRegRule_of_skipReg exec_skipEqReg

/-- 45_skip R154. -/
theorem skipRegRule_skipNeqReg : SkipRegRule .skipNeqReg := skipRegRule_of_skipReg exec_skipNeqReg

/-- The rule on a word that compares `R[0]` and `R[1]`, when they are equal. -/
theorem SkipRegRule.executeWord_of_eq {mk : Field → Field → Field → Instr} (rule : SkipRegRule mk) {w : Word}
    (hdec : decode w = .ok (mk 0 0 1)) {s : State} (h : s.r0 = s.r1) :
    executeWord w s = .next { s with pc := s.pc + 1 } := by
  obtain ⟨htaken, -, -⟩ := rule
  rw [executeWord_of_decode_ok hdec, htaken 0 0 1 s _ _ rfl rfl (congrArg BitVec.toNat h)]

/-- The rule on a word that compares `R[0]` and `R[1]`, when they differ. -/
theorem SkipRegRule.executeWord_of_ne {mk : Field → Field → Field → Instr} (rule : SkipRegRule mk) {w : Word}
    (hdec : decode w = .ok (mk 0 0 1)) {s : State} (h : s.r0 ≠ s.r1) : executeWord w s = .next s := by
  obtain ⟨-, hnotTaken, -⟩ := rule
  rw [executeWord_of_decode_ok hdec, hnotTaken 0 0 1 s _ _ rfl rfl (mt BitVec.eq_of_toNat_eq h)]

/-- Settles O35: both instructions skip on equality, so one rule serves both; the worked examples are its cases. -/
theorem skipRegisterRules : Obligations.SkipRegisterRules := by
  refine ⟨encodesFields_of_selectInstr fun _ _ _ => rfl, skipRegRule_skipEqReg,
    encodesFields_of_selectInstr fun _ _ _ => rfl, skipRegRule_skipNeqReg, fun k x y s => ?_,
    fun s h0 => ⟨fun h1 => ?_, fun h1 => ?_⟩⟩
  · rw [exec_skipNeqReg, exec_skipEqReg]
  · have heq : s.r0 = s.r1 := h0.trans h1.symm
    exact ⟨skipRegRule_skipEqReg.executeWord_of_eq rfl heq, skipRegRule_skipNeqReg.executeWord_of_eq rfl heq⟩
  · have hne : s.r0 ≠ s.r1 := by simp [h0, h1]
    exact ⟨skipRegRule_skipEqReg.executeWord_of_ne rfl hne, skipRegRule_skipNeqReg.executeWord_of_ne rfl hne⟩

end Sys2Proof.Machine

/-! PROOFS. The skip at the end of the program (70_reset R209): the index FETCH reads, the length no step changes, and
the `pc` a taken skip leaves. -/

namespace Sys2Proof.Machine

/-- 10_state R29: at or past the end of the program, FETCH wraps to word 0, however far past `pc` is. -/
theorem fetchIndex_of_progLen_le {s : State} (h : s.progLen ≤ s.pc) : fetchIndex s = 0 := if_pos h

/-- 20_memory R53, for the length: an enabled step leaves `L` as it was. -/
theorem step_progLen_of_enabled {s t : State} (he : stepEnabled s = true) (h : step s = .next t) :
    t.progLen = s.progLen := by
  obtain ⟨w, -, -, hexec⟩ := step_enabled he h
  obtain ⟨u, hu, -, -, hlen, -⟩ := executeWord_endsIn w (fetched s w)
  cases hexec.symm.trans hu
  exact hlen

/-- 45_skip R150: a taken skip leaves `pc` two above the index FETCH read, with no wrap, and keeps `L`. -/
theorem step_of_skipTaken {s : State} {w : Word} (he : stepEnabled s = true) (hw : nextWord s = some w)
    (hfault : wordFault w = none) (hskip : skipTaken w s = true) :
    ∃ t, step s = .next t ∧ t.pc = fetchIndex s + 2 ∧ t.progLen = s.progLen := by
  obtain ⟨t, ht, hpc⟩ := pcMovesAsListed s w he hw
  have htaken : wordFault w = none ∧ skipTaken w s = true := ⟨hfault, hskip⟩
  rw [if_pos htaken] at hpc
  exact ⟨t, ht, hpc, step_progLen_of_enabled he ht⟩

/-- Settles O24: in both cases the skip leaves `pc` at or past `L`, where the next FETCH wraps. -/
theorem skipAtTheEndIsAbsorbed : Obligations.SkipAtTheEndIsAbsorbed := by
  intro s w he hw hfault hskip
  obtain ⟨t, ht, hpc, hlen⟩ := step_of_skipTaken he hw hfault hskip
  refine ⟨fun hlast => ⟨t, ht, ?_, ?_⟩, fun hbeforeLast => ⟨t, ht, ?_, ?_⟩⟩
  · rw [hpc, ← hlast]
  · exact fetchIndex_of_progLen_le (by omega)
  · rw [hpc, hbeforeLast]
  · exact fetchIndex_of_progLen_le (by omega)

end Sys2Proof.Machine

/-! PROOFS. Encoder and decoder (30_encoding R71 to R83): the opcode map row by row, and that decoding and encoding
undo each other. -/

namespace Sys2Proof.Machine

/-! ### Digits and immediates -/

theorem isDigit_iff {f : Field} : Field.isDigit f = true ↔ f.toNat ≤ 9 := decide_eq_true_iff

theorem operandsDecimal_iff {w : Word} : operandsDecimal w = true ↔
    Field.isDigit (kOf w) = true ∧ Field.isDigit (xOf w) = true ∧ Field.isDigit (yOf w) = true := by
  simp only [operandsDecimal, Bool.and_eq_true, and_assoc]

theorem wfFields_iff {k x y : Field} : Instr.wfFields k x y = true ↔
    Field.isDigit k = true ∧ Field.isDigit x = true ∧ Field.isDigit y = true := by
  simp only [Instr.wfFields, Bool.and_eq_true, and_assoc]

theorem wfImm_iff {k : Field} {nn : Nat} : Instr.wfImm k nn = true ↔ Field.isDigit k = true ∧ nn ≤ 99 :=
  Bool.and_eq_true_iff.trans (and_congr Iff.rfl decide_eq_true_iff)

theorem immediate_le {x y : Field} (hx : Field.isDigit x = true) (hy : Field.isDigit y = true) :
    immediate x y ≤ 99 := by
  rw [isDigit_iff] at hx hy
  unfold immediate
  omega

theorem tensDigit_immediate {x y : Field} (hy : Field.isDigit y = true) : tensDigit (immediate x y) = x := by
  rw [isDigit_iff] at hy
  have htens : (10 * x.toNat + y.toNat) / 10 = x.toNat := by omega
  rw [tensDigit, immediate, htens, BitVec.ofNat_toNat, BitVec.setWidth_eq]

theorem unitsDigit_immediate {x y : Field} (hy : Field.isDigit y = true) : unitsDigit (immediate x y) = y := by
  rw [isDigit_iff] at hy
  have hunits : (10 * x.toNat + y.toNat) % 10 = y.toNat := by omega
  rw [unitsDigit, immediate, hunits, BitVec.ofNat_toNat, BitVec.setWidth_eq]

/-- 30_encoding R76: the decimal pair `x y` is the immediate's two digits, so no bit of the word is lost. -/
theorem mkWordImm_immediate {op k x y : Field} (hy : Field.isDigit y = true) :
    mkWordImm op k (immediate x y) = mkWord op k x y := by
  rw [mkWordImm, tensDigit_immediate hy, unitsDigit_immediate hy]

/-! ### Encode, then decode -/

/-- A row of format N or XY decodes the word of its well-formed fields. -/
theorem EncodesFields.decode_mkWord {op : Field} {mk : Field → Field → Field → Instr} (row : EncodesFields op mk)
    {k x y : Field} (h : Instr.wfFields k x y = true) : decode (mkWord op k x y) = .ok (mk k x y) := by
  obtain ⟨hk, hx, hy⟩ := wfFields_iff.1 h
  exact row k x y hk hx hy

/-- A row of format KI decodes the word of its register and immediate: the two digits give the immediate back. -/
theorem EncodesImm.decode_mkWordImm {op : Field} {mk : Field → Nat → Instr} (row : EncodesImm op mk)
    {k : Field} {nn : Nat} (h : Instr.wfImm k nn = true) : decode (mkWordImm op k nn) = .ok (mk k nn) := by
  obtain ⟨hk, hn⟩ := wfImm_iff.1 h
  have hdigits : 10 * (tensDigit nn).toNat + (unitsDigit nn).toNat = nn := immediate_digits hn
  rw [mkWordImm, row k _ _ hk (tensDigit_isDigit hn) (unitsDigit_isDigit nn), hdigits]

theorem encodesFields_halt : EncodesFields 0 .halt := encodesFields_of_selectInstr fun _ _ _ => rfl
theorem encodesImm_load : EncodesImm 1 .load := encodesImm_of_selectInstr fun _ _ _ => rfl
theorem encodesFields_add : EncodesFields 2 .add := encodesFields_of_selectInstr fun _ _ _ => rfl
theorem encodesFields_sub : EncodesFields 3 .sub := encodesFields_of_selectInstr fun _ _ _ => rfl
theorem encodesFields_or : EncodesFields 4 .or := encodesFields_of_selectInstr fun _ _ _ => rfl
theorem encodesFields_and : EncodesFields 5 .and := encodesFields_of_selectInstr fun _ _ _ => rfl
theorem encodesFields_xor : EncodesFields 6 .xor := encodesFields_of_selectInstr fun _ _ _ => rfl
theorem encodesImm_skipEqImm : EncodesImm 7 .skipEqImm := encodesImm_of_selectInstr fun _ _ _ => rfl
theorem encodesImm_skipNeqImm : EncodesImm 8 .skipNeqImm := encodesImm_of_selectInstr fun _ _ _ => rfl
theorem encodesFields_skipEqReg : EncodesFields 9 .skipEqReg := encodesFields_of_selectInstr fun _ _ _ => rfl
theorem encodesFields_skipNeqReg : EncodesFields 10 .skipNeqReg := encodesFields_of_selectInstr fun _ _ _ => rfl

/-- Settles O3: each instruction is of a row of the opcode map, and the row decodes its word. -/
theorem decodeOfEncode : Obligations.DecodeOfEncode := by
  intro i hwf
  cases i with
  | halt k x y => exact encodesFields_halt.decode_mkWord hwf
  | load k nn => exact encodesImm_load.decode_mkWordImm hwf
  | add k x y => exact encodesFields_add.decode_mkWord hwf
  | sub k x y => exact encodesFields_sub.decode_mkWord hwf
  | or k x y => exact encodesFields_or.decode_mkWord hwf
  | and k x y => exact encodesFields_and.decode_mkWord hwf
  | xor k x y => exact encodesFields_xor.decode_mkWord hwf
  | skipEqImm k nn => exact encodesImm_skipEqImm.decode_mkWordImm hwf
  | skipNeqImm k nn => exact encodesImm_skipNeqImm.decode_mkWordImm hwf
  | skipEqReg k x y => exact encodesFields_skipEqReg.decode_mkWord hwf
  | skipNeqReg k x y => exact encodesFields_skipNeqReg.decode_mkWord hwf

/-- Settles O2: the eleven rows, then the two defaults in the order of the checks. -/
theorem opcodeMapDecides : Obligations.OpcodeMapDecides :=
  ⟨encodesFields_halt, encodesImm_load, encodesFields_add, encodesFields_sub, encodesFields_or, encodesFields_and,
    encodesFields_xor, encodesImm_skipEqImm, encodesImm_skipNeqImm, encodesFields_skipEqReg, encodesFields_skipNeqReg,
    fun _ => decode_of_not_operandsDecimal, fun _ hd hop => decode_eq_unknownOpcode_iff.2 ⟨hd, hop⟩⟩

/-! ### Decode, then encode -/

/-- The instruction a row of the opcode map selects for decimal fields is well formed, and its word has these fields. -/
theorem encode_of_selectInstr {op k x y : Field} {i : Instr} (hk : Field.isDigit k = true)
    (hx : Field.isDigit x = true) (hy : Field.isDigit y = true) (h : selectInstr op k x y = some i) :
    i.wf = true ∧ encode i = mkWord op k x y := by
  have hfields : Instr.wfFields k x y = true := wfFields_iff.2 ⟨hk, hx, hy⟩
  have himm : Instr.wfImm k (immediate x y) = true := wfImm_iff.2 ⟨hk, immediate_le hx hy⟩
  have hop : ∀ {n : Nat}, op.toNat = n → BitVec.ofNat 4 n = op := by
    rintro _ rfl
    rw [BitVec.ofNat_toNat, BitVec.setWidth_eq]
  unfold selectInstr at h
  split at h <;> cases h
  case h_2 hn | h_8 hn | h_9 hn => exact ⟨himm, by rw [← hop hn]; exact mkWordImm_immediate hy⟩
  all_goals next hn => exact ⟨hfields, by rw [← hop hn]; rfl⟩

/-- Settles O4: the selected instruction has the word's own fields, and a word is the fields it holds. -/
theorem encodeOfDecode : Obligations.EncodeOfDecode := by
  intro w i h
  obtain ⟨hd, hsel⟩ := decode_eq_ok_iff.1 h
  obtain ⟨hk, hx, hy⟩ := operandsDecimal_iff.1 hd
  obtain ⟨hwf, hencode⟩ := encode_of_selectInstr hk hx hy hsel
  exact ⟨hwf, hencode.trans (mkWord_fields w)⟩

end Sys2Proof.Machine

/-! PROOFS. Causes and registers (60_exceptions R170 to R178, 10_state R24): an instruction raises InvalidRegister
exactly on an illegal index it uses, and otherwise writes only the registers its row lists; what that makes of a whole
step. -/

namespace Sys2Proof.Machine

/-! ### What an instruction checks and writes -/

/-- The register indices an instruction writes: `writtenRegs`, read off the instruction. -/
def instrWrites : Instr → List Field
  | .load k _ => [k]
  | .add _ x _ | .sub _ x _ => [x, Config.carryReg]
  | .or _ x _ | .and _ x _ | .xor _ x _ => [x]
  | _ => []

/-- The table of written registers over words agrees with the instruction, opcode by opcode. -/
theorem writtenRegs_of_decode {w : Word} {i : Instr} (h : decode w = .ok i) : writtenRegs w = instrWrites i := by
  obtain ⟨-, hsel⟩ := decode_eq_ok_iff.1 h
  unfold selectInstr at hsel
  split at hsel <;> cases hsel <;> simp [writtenRegs, instrWrites, *]

/-- The result raises InvalidRegister if an index in `used` is illegal; if all are legal it is a next state with the
latch and every register outside `written` as before. -/
def ChecksRegs (used written : List Field) (s : State) (res : Result) : Prop :=
  ((∃ r ∈ used, 2 < r.toNat) ∧ res = raise .invalidRegister s) ∨
    ((∀ r ∈ used, r.toNat ≤ 2) ∧ ∃ t, res = .next t ∧ t.fault = s.fault ∧ KeepsRegsBut written s t)

theorem KeepsRegsBut.refl (ws : List Field) (s : State) : KeepsRegsBut ws s s := fun _ _ => rfl

theorem checksRegs_of_pair_illegal {x y : Field} (h : 2 < x.toNat ∨ 2 < y.toNat) (written : List Field) (s : State) :
    ChecksRegs [x, y] written s (raise .invalidRegister s) :=
  .inl ⟨by simpa using h, rfl⟩

theorem checksRegs_of_pair_read {x y : Field} {written : List Field} {s t : State} {a b : Byte}
    (ha : readReg x s = some a) (hb : readReg y s = some b) (hfault : t.fault = s.fault)
    (hkeep : KeepsRegsBut written s t) : ChecksRegs [x, y] written s (.next t) :=
  .inr ⟨by simp [le_of_readReg_eq_some ha, le_of_readReg_eq_some hb], t, rfl, hfault, hkeep⟩

theorem execHalt_checksRegs (s : State) : ChecksRegs [] [] s (execHalt s) :=
  .inr ⟨by simp, _, rfl, rfl, fun _ _ => rfl⟩

/-- LOAD with an immediate in range checks the one index it writes. -/
theorem exec_load_checksRegs {nn : Nat} (hn : nn ≤ 255) (k : Field) (s : State) :
    ChecksRegs [k] [k] s (exec (.load k nn) s) := by
  by_cases hk : k.toNat ≤ 2
  · obtain ⟨t, ht, -, hkeep, -, -, -, hfault, -⟩ := exec_load_spec hn hk s
    exact .inr ⟨by simpa using hk, t, ht, hfault, hkeep⟩
  · rw [exec_load_of_le hn, setReg_of_two_lt (by omega)]
    exact .inl ⟨by simpa using hk, rfl⟩

theorem arithmetic_checksRegs (res car : Byte → Byte → Byte) (x y : Field) (s : State) :
    ChecksRegs [x, y] [x, Config.carryReg] s (arithmetic res car x y s) := by
  rcases arithmetic_cases res car x y s with ⟨a, b, ha, hb, -, -⟩ | ⟨hxy, h⟩
  · obtain ⟨t, ht, -, -, hkeep, -, -, -, hfault, -⟩ := arithmetic_spec res car ha hb
    exact ht ▸ checksRegs_of_pair_read ha hb hfault hkeep
  · exact h ▸ checksRegs_of_pair_illegal hxy _ s

theorem logic_checksRegs (f : Byte → Byte → Byte) (x y : Field) (s : State) :
    ChecksRegs [x, y] [x] s (logic f x y s) := by
  rcases logic_cases f x y s with ⟨a, b, t, ha, hb, ht, h⟩ | ⟨hxy, h⟩
  · obtain ⟨-, hother, -, -, -, hfault, -⟩ := writeReg_spec ht
    exact h ▸ checksRegs_of_pair_read ha hb hfault fun j hj => hother j (List.ne_of_not_mem_cons hj)
  · exact h ▸ checksRegs_of_pair_illegal hxy _ s

/-- A skip, taken or not, leaves the latch and the registers alone. -/
theorem skipped_keeps (c : Bool) (s : State) :
    (if c then skip s else s).fault = s.fault ∧ KeepsRegsBut [] s (if c then skip s else s) := by
  cases c
  · exact ⟨rfl, .refl [] s⟩
  · exact ⟨rfl, fun _ _ => rfl⟩

theorem skipImm_checksRegs (cond : Nat → Nat → Bool) (k : Field) (nn : Nat) (s : State) :
    ChecksRegs [k] [] s (skipImm cond k nn s) := by
  rcases skipImm_cases cond k nn s with ⟨a, ha, h⟩ | ⟨hk, h⟩
  · exact .inr ⟨by simpa using le_of_readReg_eq_some ha, _, h, skipped_keeps _ s⟩
  · exact .inl ⟨by simpa using hk, h⟩

theorem skipReg_checksRegs (cond : Byte → Byte → Bool) (x y : Field) (s : State) :
    ChecksRegs [x, y] [] s (skipReg cond x y s) := by
  rcases skipReg_cases cond x y s with ⟨a, b, ha, hb, h⟩ | ⟨hxy, h⟩
  · obtain ⟨hfault, hkeep⟩ := skipped_keeps (cond a b) s
    exact h ▸ checksRegs_of_pair_read ha hb hfault hkeep
  · exact h ▸ checksRegs_of_pair_illegal hxy _ s

/-- 60_exceptions R171 and 10_state R24, per instruction with a word: LOAD's range check is the one check left out, and
no word reaches it (42_load R126). -/
theorem exec_checksRegs {i : Instr} (hwf : i.wf = true) (s : State) :
    ChecksRegs (instrRegs i) (instrWrites i) s (exec i s) := by
  cases i with
  | halt k x y => exact execHalt_checksRegs s
  | load k nn =>
    obtain ⟨-, hn⟩ := wfImm_iff.1 hwf
    exact exec_load_checksRegs (hn.trans (by decide)) k s
  | add k x y => exact arithmetic_checksRegs _ _ x y s
  | sub k x y => exact arithmetic_checksRegs _ _ x y s
  | or k x y => exact logic_checksRegs _ x y s
  | and k x y => exact logic_checksRegs _ x y s
  | xor k x y => exact logic_checksRegs _ x y s
  | skipEqImm k nn => exact skipImm_checksRegs (fun a n => decide (a = n)) k nn s
  | skipNeqImm k nn => exact skipImm_checksRegs (fun a n => decide (a ≠ n)) k nn s
  | skipEqReg k x y => exact skipReg_checksRegs _ x y s
  | skipNeqReg k x y => exact skipReg_checksRegs _ x y s

/-! ### The cause of a word -/

theorem wf_of_decode {w : Word} {i : Instr} (h : decode w = .ok i) : i.wf = true := by
  obtain ⟨hwf, -⟩ := encodeOfDecode w i h
  exact hwf

theorem wordFault_of_not_operandsDecimal {w : Word} (hd : operandsDecimal w = false) :
    wordFault w = some .malformedProgramWord :=
  wordFault_of_decode_error (decode_of_not_operandsDecimal hd)

theorem wordFault_of_unknownOpcode {w : Word} (hd : operandsDecimal w = true) (hop : 11 ≤ (opOf w).toNat) :
    wordFault w = some .unknownOpcode :=
  wordFault_of_decode_error (decode_eq_unknownOpcode_iff.2 ⟨hd, hop⟩)

/-- Past the two checks of the decoder, a word decodes and InvalidRegister is the only cause left. -/
theorem wordFault_of_known {w : Word} (hd : operandsDecimal w = true) (hop : (opOf w).toNat ≤ 10) :
    wordFault w = none ∨ wordFault w = some .invalidRegister := by
  have hknown : ¬ Config.numOpcodes ≤ (opOf w).toNat := Nat.not_le.2 (Nat.lt_succ_of_le hop)
  simp only [wordFault, hd, hknown, Bool.true_eq_false, if_false]
  split
  · exact .inr rfl
  · exact .inl rfl

theorem exists_decode_of_known {w : Word} (hd : operandsDecimal w = true) (hop : (opOf w).toNat ≤ 10) :
    ∃ i, decode w = .ok i := by
  cases hsel : selectInstr (opOf w) (kOf w) (xOf w) (yOf w) with
  | none => exact absurd ((selectInstr_eq_none_iff _ _ _ _).1 hsel) (Nat.not_le.2 (Nat.lt_succ_of_le hop))
  | some i => exact ⟨i, decode_eq_ok_iff.2 ⟨hd, hsel⟩⟩

/-- 60_exceptions R178: the three checks of a word in their order; no word raises ImmediateOverflow (R172). -/
theorem wordFault_priority {w : Word} {c : Cause} (h : wordFault w = some c) :
    (c = .malformedProgramWord ↔ operandsDecimal w = false) ∧
      (c = .unknownOpcode ↔ operandsDecimal w = true ∧ 11 ≤ (opOf w).toNat) ∧
      (c = .invalidRegister ↔ operandsDecimal w = true ∧ (opOf w).toNat ≤ 10) ∧ c ≠ .immediateOverflow := by
  cases hd : operandsDecimal w with
  | false =>
    obtain rfl : c = .malformedProgramWord := Option.some.inj (h.symm.trans (wordFault_of_not_operandsDecimal hd))
    simp
  | true =>
    by_cases hop : 11 ≤ (opOf w).toNat
    · obtain rfl : c = .unknownOpcode := Option.some.inj (h.symm.trans (wordFault_of_unknownOpcode hd hop))
      have hop' : ¬ (opOf w).toNat ≤ 10 := by omega
      simp [hop, hop']
    · have hop' : (opOf w).toNat ≤ 10 := by omega
      have hfault : wordFault w = some .invalidRegister :=
        (wordFault_of_known hd hop').resolve_left (by simp [h])
      obtain rfl : c = .invalidRegister := Option.some.inj (h.symm.trans hfault)
      simp [hop, hop']

/-- A HALT word raises nothing. -/
theorem wordFault_of_halt {w : Word} (hd : operandsDecimal w = true) (hop : opOf w = 0) : wordFault w = none :=
  (wordFault_eq_none_iff_of_decode (decode_of_opOf_eq_zero hd hop)).2 (by simp [instrRegs])

/-- A HALT word does not skip. -/
theorem skipTaken_of_halt {w : Word} (hd : operandsDecimal w = true) (hop : opOf w = 0) (s : State) :
    skipTaken w s = false :=
  skipTaken_of_decode (decode_of_opOf_eq_zero hd hop) s

/-! ### EXECUTE and the step, by the cause of the word -/

/-- EXECUTE of a word raises the cause the table gives it; a word without one completes, and writes what the table of
written registers lists. -/
theorem executeWord_by_wordFault (w : Word) (s : State) :
    (∃ c, wordFault w = some c ∧ executeWord w s = raise c s) ∨
      (wordFault w = none ∧ ∃ t, executeWord w s = .next t ∧ t.fault = s.fault ∧ KeepsRegsBut (writtenRegs w) s t) := by
  rcases executeWord_cases w s with ⟨i, hi, h⟩ | ⟨e, he, h⟩
  · have hnone := wordFault_eq_none_iff_of_decode hi
    rw [h, writtenRegs_of_decode hi]
    rcases exec_checksRegs (wf_of_decode hi) s with ⟨hbad, hraise⟩ | ⟨hlegal, hnext⟩
    · obtain ⟨r, hr, hlt⟩ := hbad
      obtain ⟨hd, hsel⟩ := decode_eq_ok_iff.1 hi
      have hknown : ¬ Config.numOpcodes ≤ (opOf w).toNat := by
        simp [← selectInstr_eq_none_iff (opOf w) (kOf w) (xOf w) (yOf w), hsel]
      have hfaults : wordFault w ≠ none := fun hw => Nat.not_le.2 hlt (hnone.1 hw r hr)
      exact .inl ⟨_, (wordFault_of_known hd (Nat.le_of_lt_succ (Nat.not_le.1 hknown))).resolve_left hfaults, hraise⟩
    · exact .inr ⟨hnone.2 hlegal, hnext⟩
  · exact .inl ⟨_, wordFault_of_decode_error he, h⟩

theorem fetched_fault_of_enabled {s : State} (he : stepEnabled s = true) (w : Word) : (fetched s w).fault = none := by
  obtain ⟨-, hfault⟩ := stepEnabled_eq_true_iff.1 he
  exact hfault

/-- 60_exceptions R176: a step on a word with a cause leaves the state after FETCH with the latch set. -/
theorem step_of_wordFault_eq_some {s : State} {w : Word} {c : Cause} (he : stepEnabled s = true)
    (hw : nextWord s = some w) (hc : wordFault w = some c) :
    step s = .next { afterFetch s w with fault := some c } := by
  rcases executeWord_by_wordFault w (fetched s w) with ⟨c', hc', h⟩ | ⟨hnone, -⟩
  · obtain rfl : c' = c := Option.some.inj (hc'.symm.trans hc)
    exact (step_of_nextWord he hw).trans h
  · cases hnone.symm.trans hc

/-- A step on a word without a cause completes, and writes only what the table lists. -/
theorem step_of_wordFault_eq_none {s : State} {w : Word} (he : stepEnabled s = true) (hw : nextWord s = some w)
    (hnone : wordFault w = none) : ∃ t, step s = .next t ∧ t.fault = none ∧ KeepsRegsBut (writtenRegs w) s t := by
  rcases executeWord_by_wordFault w (fetched s w) with ⟨c, hc, -⟩ | ⟨-, t, ht, hfault, hkeep⟩
  · cases hnone.symm.trans hc
  · exact ⟨t, (step_of_nextWord he hw).trans ht, hfault.trans (fetched_fault_of_enabled he w), hkeep⟩

/-- A step that answers a next state from an enabled one has read a word. -/
theorem exists_nextWord_of_step {s t : State} (he : stepEnabled s = true) (h : step s = .next t) :
    ∃ w, nextWord s = some w := by
  obtain ⟨w, hL, hread, -⟩ := step_enabled he h
  exact ⟨w, nextWord_eq_some_iff.2 ⟨hL, hread⟩⟩

/-- FETCH reads the word of its index, in the form that 40_fetch R100 writes it. -/
theorem nextWord_of_read {s : State} {w : Word} (hL : 1 ≤ s.progLen)
    (h : s.prog.read (if s.progLen ≤ s.pc then 0 else s.pc) = some w) : nextWord s = some w :=
  nextWord_eq_some_iff.2 ⟨Nat.one_le_iff_ne_zero.1 hL, h⟩

/-- Settles O14: by whether the table gives the word a cause. -/
theorem stepFaultsExactlyAsTabled : Obligations.StepFaultsExactlyAsTabled := by
  intro s w he hw
  cases hfault : wordFault w with
  | some c => exact ⟨_, step_of_wordFault_eq_some he hw hfault, rfl⟩
  | none =>
    obtain ⟨t, ht, hnone, -⟩ := step_of_wordFault_eq_none he hw hfault
    exact ⟨t, ht, hnone⟩

/-- The latch after an enabled step is the cause of the word it read. -/
theorem fault_of_step {s t : State} {w : Word} (he : stepEnabled s = true) (hw : nextWord s = some w)
    (h : step s = .next t) : t.fault = wordFault w := by
  obtain ⟨u, hu, hfault⟩ := stepFaultsExactlyAsTabled s w he hw
  cases h.symm.trans hu
  exact hfault

/-- 60_exceptions R176: an enabled step that leaves a cause leaves nothing else but what FETCH did. -/
theorem eq_afterFetch_of_fault {s t : State} {w : Word} {c : Cause} (he : stepEnabled s = true)
    (hw : nextWord s = some w) (h : step s = .next t) (hc : t.fault = some c) :
    t = { afterFetch s w with fault := some c } := by
  have hword : wordFault w = some c := (fault_of_step he hw h).symm.trans hc
  cases h.symm.trans (step_of_wordFault_eq_some he hw hword)
  rfl

/-- Settles O15: the latch is the word's cause, whose priority is the table's; the four words by evaluation. -/
theorem faultPriority : Obligations.FaultPriority :=
  ⟨fun _ _ _ _ he hw h hc => wordFault_priority ((fault_of_step he hw h).symm.trans hc),
    by decide, by decide, by decide, by decide⟩

/-- Settles O20: a word with a cause changes no register, and one without only those the table lists. -/
theorem registersChangeOnlyAsTabled : Obligations.RegistersChangeOnlyAsTabled := by
  intro s w he hw
  cases hfault : wordFault w with
  | some c => exact ⟨_, step_of_wordFault_eq_some he hw hfault, fun _ _ => rfl⟩
  | none =>
    obtain ⟨t, ht, -, hkeep⟩ := step_of_wordFault_eq_none he hw hfault
    exact ⟨t, ht, hkeep⟩

/-- Settles O12: a field above 9 fails the operand check, whose cause comes first. -/
theorem operandCheckComesFirst : Obligations.OperandCheckComesFirst := by
  intro s w he hw hfield
  have hd : operandsDecimal w = false := by
    rw [Bool.eq_false_iff, ne_eq, operandsDecimal_iff, isDigit_iff, isDigit_iff, isDigit_iff]
    omega
  exact step_of_wordFault_eq_some he hw (wordFault_of_not_operandsDecimal hd)

/-- Settles O10: EXECUTE of a word that decodes is `exec` of its instruction, in the state FETCH leaves. -/
theorem stepRunsDecodedInstruction : Obligations.StepRunsDecodedInstruction := by
  intro s w i he hL hread hi
  have hstep : step s = executeWord w (fetched s w) := step_of_nextWord he (nextWord_of_read hL hread)
  exact ⟨wf_of_decode hi, by rw [hstep, executeWord_of_decode_ok hi, fetched_eq_afterFetch]⟩

/-- Settles O11: the two checks in their order, then the arm of the instruction the word decodes to. -/
theorem stepIsTheWholeFunction : Obligations.StepIsTheWholeFunction := by
  intro s w he hL hread
  have hw : nextWord s = some w := nextWord_of_read hL hread
  refine ⟨fun hd => ?_, fun hd hop => step_of_unknownOpcode he hw hd hop, fun hd hop => ?_⟩
  · exact step_of_wordFault_eq_some he hw (wordFault_of_not_operandsDecimal hd)
  · obtain ⟨i, hi⟩ := exists_decode_of_known hd hop
    obtain ⟨-, hexec⟩ := stepRunsDecodedInstruction s w i he hL hread hi
    obtain ⟨t, ht, -⟩ := stepFaultsExactlyAsTabled s w he hw
    exact ⟨i, t, hi, opcode_of_decode hi, hexec, ht, fun c => eq_afterFetch_of_fault he hw ht⟩

end Sys2Proof.Machine

/-! PROOFS. The invariant of the reachable states (10_state R27, R44; 60_exceptions R176) and whole runs (70_reset R211
to R217): what an enabled step leaves, said once, and what every step and every run keeps. -/

namespace Sys2Proof.Machine

/-! ### What an enabled step leaves -/

/-- All but the registers of the state `t` that an enabled step on `w` leaves. -/
structure StepLeaves (s : State) (w : Word) (t : State) : Prop where
  ir_eq : t.ir = some w
  fault_eq : t.fault = wordFault w
  pc_eq : t.pc = fetchIndex s + 1 + (if wordFault w = none ∧ skipTaken w s = true then 1 else 0)
  run_eq : t.run = if operandsDecimal w = true ∧ opOf w = 0 then .halted else .running
  progLen_eq : t.progLen = s.progLen
  prog_eq : t.prog = s.prog

theorem stepLeaves_of_nextWord {s : State} {w : Word} (he : stepEnabled s = true) (hw : nextWord s = some w) :
    ∃ t, step s = .next t ∧ StepLeaves s w t := by
  obtain ⟨t, ht, hrun, hir, hlen, hprog⟩ := executeWord_endsIn w (fetched s w)
  obtain ⟨u, hu, hpc⟩ := executeWord_addsToPc w (fetched s w)
  cases ht.symm.trans hu
  have hstep : step s = .next t := (step_of_nextWord he hw).trans ht
  rw [fetched_run_of_enabled he] at hrun
  exact ⟨t, hstep, hir, fault_of_step he hw hstep, hpc, hrun, hlen, hprog⟩

/-- Every way a step request can answer a next state: it is ignored, or it runs the next word. -/
theorem step_next_cases {s t : State} (h : step s = .next t) :
    (stepEnabled s = false ∧ t = s) ∨ (stepEnabled s = true ∧ ∃ w, nextWord s = some w ∧ StepLeaves s w t) := by
  cases he : stepEnabled s with
  | false =>
    cases h.symm.trans (step_disabled he)
    exact .inl ⟨rfl, rfl⟩
  | true =>
    obtain ⟨w, hw⟩ := exists_nextWord_of_step he h
    obtain ⟨u, hu, hleaves⟩ := stepLeaves_of_nextWord he hw
    cases h.symm.trans hu
    exact .inr ⟨rfl, w, hw, hleaves⟩

namespace StepLeaves

variable {s t : State} {w : Word}

/-- `pc` is one above the fetched index, or two after a taken skip. -/
theorem pc_bounds (h : StepLeaves s w t) : fetchIndex s + 1 ≤ t.pc ∧ t.pc ≤ fetchIndex s + 2 := by
  rw [h.pc_eq]
  split <;> omega

/-- A word that raises a cause does not skip. -/
theorem pc_of_fault (h : StepLeaves s w t) {c : Cause} (hc : t.fault = some c) : t.pc = fetchIndex s + 1 := by
  have hcause : wordFault w = some c := h.fault_eq.symm.trans hc
  simp [h.pc_eq, hcause]

theorem run_of_fault (h : StepLeaves s w t) {c : Cause} (hc : t.fault = some c) : t.run = .running := by
  have hcause : wordFault w = some c := h.fault_eq.symm.trans hc
  have hnot : ¬ (operandsDecimal w = true ∧ opOf w = 0) := fun ⟨hd, hop⟩ => by
    cases hcause.symm.trans (wordFault_of_halt hd hop)
  rw [h.run_eq, if_neg hnot]

theorem halt_word_of_halted (h : StepLeaves s w t) (hrun : t.run = .halted) :
    operandsDecimal w = true ∧ opOf w = 0 := by
  by_contra hnot
  cases hrun.symm.trans (h.run_eq.trans (if_neg hnot))

theorem run_ne_init (h : StepLeaves s w t) : t.run ≠ .init := by
  rw [h.run_eq]
  split <;> simp

/-- 10_state R44: the step leaves a state of the invariant once the program it leaves alone is canonical. -/
theorem inv (h : StepLeaves s w t) (hL : s.progLen ≠ 0) (hwf : s.prog.wf = true)
    (hbelow : ∀ c ∈ s.prog, c.1 < s.progLen) : t.Inv where
  pc_le := by
    have hlt := fetchIndex_lt hL
    obtain ⟨-, hpc⟩ := h.pc_bounds
    rw [h.progLen_eq]
    omega
  pc_pos _ := by
    obtain ⟨hpc, -⟩ := h.pc_bounds
    omega
  init_iff := by simp [h.run_ne_init, h.ir_eq]
  init_reset hinit := absurd hinit h.run_ne_init
  faulted c hc := by
    have hlt := fetchIndex_lt hL
    have hpc := h.pc_of_fault hc
    refine ⟨h.run_of_fault hc, ?_, w, h.ir_eq, h.fault_eq.symm.trans hc⟩
    rw [h.progLen_eq]
    omega
  halted hrun := by
    have hlt := fetchIndex_lt hL
    obtain ⟨hd, hop⟩ := h.halt_word_of_halted hrun
    have hpc : t.pc = fetchIndex s + 1 := by simp [h.pc_eq, skipTaken_of_halt hd hop]
    refine ⟨h.fault_eq.trans (wordFault_of_halt hd hop), ?_, w, h.ir_eq, hd, hop⟩
    rw [h.progLen_eq]
    omega
  prog_wf := h.prog_eq ▸ hwf
  prog_below := by rwa [h.prog_eq, h.progLen_eq]

end StepLeaves

/-! ### What every step keeps -/

/-- Settles O21: an ignored request changes nothing, and a step leaves the program alone. -/
theorem programIsImmutable : Obligations.ProgramIsImmutable := by
  intro s t h
  rcases step_next_cases h with ⟨-, rfl⟩ | ⟨-, w, -, hleaves⟩
  · exact ⟨rfl, rfl, fun _ => rfl⟩
  · exact ⟨hleaves.progLen_eq, hleaves.prog_eq, fun a => by rw [hleaves.prog_eq]⟩

/-- Settles O44: an ignored request changes nothing; an enabled step needs of the invariant only its clauses on the
program, for FETCH and EXECUTE make the others true. -/
theorem stepKeepsInv : Obligations.StepKeepsInv := by
  intro s t hinv h
  rcases step_next_cases h with ⟨-, rfl⟩ | ⟨-, w, hw, hleaves⟩
  · exact hinv
  · obtain ⟨hL, -⟩ := nextWord_eq_some_iff.1 hw
    exact hleaves.inv hL hinv.prog_wf hinv.prog_below

/-- A loaded program has a word at the index FETCH reads. -/
theorem State.Loaded.exists_nextWord {s : State} (h : s.Loaded) : ∃ w, nextWord s = some w := by
  obtain ⟨hL, hread⟩ := h
  have hpos : s.progLen ≠ 0 := Nat.one_le_iff_ne_zero.1 hL
  obtain ⟨w, hw⟩ := Option.isSome_iff_exists.1 (hread (fetchIndex s) (fetchIndex_lt hpos))
  exact ⟨w, nextWord_eq_some_iff.2 ⟨hpos, hw⟩⟩

/-- A step request on a loaded program answers a next state: the machine's own errors are next states. -/
theorem State.Loaded.exists_step {s : State} (h : s.Loaded) : ∃ t, step s = .next t := by
  cases he : stepEnabled s with
  | false => exact ⟨s, step_disabled he⟩
  | true =>
    obtain ⟨w, hw⟩ := h.exists_nextWord
    obtain ⟨t, ht, -⟩ := stepLeaves_of_nextWord he hw
    exact ⟨t, ht⟩

/-- Settles O50: a loaded program has a word to fetch, the step keeps the invariant, and no step touches the program. -/
theorem everyStepGoesOn : Obligations.EveryStepGoesOn := by
  intro s hinv hloaded
  obtain ⟨t, ht⟩ := hloaded.exists_step
  obtain ⟨hlen, hprog, -⟩ := programIsImmutable s t ht
  exact ⟨t, ht, stepKeepsInv s t hinv ht, by rwa [State.Loaded, hlen, hprog], hlen, hprog⟩

/-- Where the latch holds a cause after a step, it held it before or the word the step read raises it. -/
theorem fault_of_step_cases {s t : State} {c : Cause} (h : step s = .next t) (hc : t.fault = some c) :
    s.fault = some c ∨ ∃ w, nextWord s = some w ∧ wordFault w = some c := by
  rcases step_next_cases h with ⟨-, rfl⟩ | ⟨-, w, hw, hleaves⟩
  · exact .inl hc
  · exact .inr ⟨w, hw, hleaves.fault_eq.symm.trans hc⟩

/-- Settles O51: the words stay as they are, and a decimal word does not raise the cause. -/
theorem stepKeepsNotMalformed : Obligations.StepKeepsNotMalformed := by
  intro s t hdecimal hfault h
  obtain ⟨-, hprog, -⟩ := programIsImmutable s t h
  refine ⟨by rwa [State.WordsDecimal, hprog], fun hc => ?_⟩
  rcases fault_of_step_cases h hc with hs | ⟨w, hw, hcause⟩
  · exact hfault hs
  · obtain ⟨-, hread⟩ := nextWord_eq_some_iff.1 hw
    obtain ⟨hmalformed, -⟩ := wordFault_priority hcause
    exact absurd (hmalformed.1 rfl) (by simp [hdecimal _ w hread])

/-- 60_exceptions R172: no word raises ImmediateOverflow, so no step does. -/
theorem step_keeps_not_immediateOverflow {s t : State} (hfault : s.fault ≠ some .immediateOverflow)
    (h : step s = .next t) : t.fault ≠ some .immediateOverflow := by
  intro hc
  rcases fault_of_step_cases h hc with hs | ⟨w, -, hcause⟩
  · exact hfault hs
  · obtain ⟨-, -, -, hne⟩ := wordFault_priority hcause
    exact hne rfl

/-! ### Terminal states -/

theorem stepEnabled_eq_false_iff {s : State} : stepEnabled s = false ↔ s.run = .halted ∨ s.fault ≠ none := by
  rw [Bool.eq_false_iff, ne_eq, stepEnabled_eq_true_iff, not_and_or, not_not]

/-- Settles O17: no step is enabled there, and a request that changes nothing can be repeated. -/
theorem terminalStatesFrozen : Obligations.TerminalStatesFrozen := by
  intro s n h
  have hstep : step s = .next s := step_disabled (stepEnabled_eq_false_iff.2 h)
  exact ⟨hstep, run_of_step_eq_self hstep n⟩

theorem haltedEnd_iff {s : State} : haltedEnd s = true ↔ s.run = .halted ∧ s.fault = none := by
  simp [haltedEnd]

theorem faultedEnd_iff {s : State} : faultedEnd s = true ↔ s.run = .running ∧ s.fault ≠ none := by
  simp [faultedEnd, Option.isSome_iff_ne_none]

/-- Settles O48: the invariant makes a halted core free of faults and a faulted one Running. -/
theorem runEndsInOneOfTwoWays : Obligations.RunEndsInOneOfTwoWays := by
  intro s hinv
  have hhalted : s.run = .halted → s.fault = none := fun hrun => (hinv.halted hrun).left
  have hfaulted : s.fault ≠ none → s.run = .running := fun hf => by
    obtain ⟨c, hc⟩ := Option.ne_none_iff_exists'.1 hf
    exact (hinv.faulted c hc).left
  rw [stepEnabled_eq_false_iff, haltedEnd_iff, faultedEnd_iff]
  refine ⟨⟨?_, ?_⟩, ?_⟩
  · rintro (hrun | hf)
    · exact .inl ⟨hrun, hhalted hrun⟩
    · exact .inr ⟨hfaulted hf, hf⟩
  · rintro (⟨hrun, -⟩ | ⟨-, hf⟩)
    · exact .inl hrun
    · exact .inr hf
  · rintro ⟨⟨-, hnone⟩, -, hf⟩
    exact hf hnone

/-! ### The launch -/

/-- Nothing has been fetched since reset: with a canonical program, that is the invariant. -/
theorem inv_launch (ws : List Word) : (launch ws).Inv where
  pc_le := Nat.zero_le _
  pc_pos h := absurd rfl h
  init_iff := iff_of_true rfl rfl
  init_reset _ := ⟨rfl, rfl, rfl, rfl, rfl⟩
  faulted _ h := nomatch h
  halted h := nomatch h
  prog_wf := load_prog_wf State.reset ws
  prog_below c hc := (Memory.ofWords_below 0 ws c hc).trans_eq (Nat.zero_add _)

@[simp] theorem launch_progLen (ws : List Word) : (launch ws).progLen = ws.length := rfl

/-- 70_reset R202: word `i` of the program stands at index `i`. -/
@[simp] theorem read_launch (ws : List Word) (a : Nat) : (launch ws).prog.read a = ws[a]? :=
  (Memory.read_ofWords 0 ws a).trans (if_pos a.zero_le)

theorem loaded_launch {ws : List Word} (h : ws ≠ []) : (launch ws).Loaded :=
  ⟨List.length_pos_of_ne_nil h, fun a ha => by simpa using ha⟩

theorem wordsDecimal_launch {ws : List Word} (h : ∀ w ∈ ws, operandsDecimal w = true) :
    (launch ws).WordsDecimal := by
  intro a w hw
  rw [read_launch] at hw
  exact h w (List.mem_of_getElem? hw)

/-- Settles O42: no field of the reset state is of a fetched word, and it has no program. -/
theorem resetMeetsInv : Obligations.ResetMeetsInv := inv_launch []

/-- Settles O43: a launch has fetched nothing yet, and its words stand at the indices below `L`. -/
theorem launchMeetsInv : Obligations.LaunchMeetsInv := fun ws => ⟨inv_launch ws, loaded_launch⟩

/-! ### Runs -/

/-- What lets every step go on, and is kept by it, lets a run of any length go on. -/
theorem run_goes_on {P : State → Prop} (goes_on : ∀ s, P s → ∃ t, step s = .next t ∧ P t) {s : State} (hs : P s)
    (n : Nat) : ∃ t, Sys2Proof.core.run n s = .next t ∧ P t := by
  induction n generalizing s with
  | zero => exact ⟨s, run_zero s, hs⟩
  | succ n ih =>
    obtain ⟨u, hu, hPu⟩ := goes_on s hs
    rw [run_succ_of_next n hu]
    exact ih hPu

/-- A state of the invariant with the program of length `n` in memory `m` loaded. -/
def HoldsProgram (n : Nat) (m : Memory) (s : State) : Prop := s.Inv ∧ s.Loaded ∧ s.progLen = n ∧ s.prog = m

theorem holdsProgram_goes_on (n : Nat) (m : Memory) (s : State) (h : HoldsProgram n m s) :
    ∃ t, step s = .next t ∧ HoldsProgram n m t := by
  obtain ⟨hinv, hloaded, hlen, hprog⟩ := h
  obtain ⟨t, ht, hinv', hloaded', hlen', hprog'⟩ := everyStepGoesOn s hinv hloaded
  exact ⟨t, ht, hinv', hloaded', hlen'.trans hlen, hprog'.trans hprog⟩

/-- Settles O45: the launch holds its program, and every step goes on holding it. -/
theorem everyRunGoesOn : Obligations.EveryRunGoesOn := by
  intro ws n hne
  have hlaunch : HoldsProgram ws.length (launch ws).prog (launch ws) := ⟨inv_launch ws, loaded_launch hne, rfl, rfl⟩
  obtain ⟨t, ht, hinv, -, hlen, hprog⟩ := run_goes_on (holdsProgram_goes_on _ _) hlaunch n
  exact ⟨t, ht, hinv, hlen, hprog⟩

/-- Settles O46: what no step raises is raised by no run, for a launch has no cause latched. -/
theorem immediateOverflowUnreachable : Obligations.ImmediateOverflowUnreachable := by
  refine ⟨fun s t => step_keeps_not_immediateOverflow, fun ws n t h => ?_⟩
  exact run_keeps (P := fun s => s.fault ≠ some .immediateOverflow)
    (fun s t => step_keeps_not_immediateOverflow) (by simp [launch, State.load, State.reset]) h

/-- Settles O47: decimal words and a latch without the cause are kept by every step, and a launch has both. -/
theorem wellFormedProgramNeverMalformed : Obligations.WellFormedProgramNeverMalformed := by
  intro ws n t hdecimal h
  have hlaunch : (launch ws).fault ≠ some .malformedProgramWord := by simp [launch, State.load, State.reset]
  obtain ⟨-, hfault⟩ := run_keeps (P := fun s => s.WordsDecimal ∧ s.fault ≠ some .malformedProgramWord)
    (fun s t ⟨hwords, hnot⟩ => stepKeepsNotMalformed s t hwords hnot) ⟨wordsDecimal_launch hdecimal, hlaunch⟩ h
  exact hfault

end Sys2Proof.Machine

/-! PROOFS. What an instruction does not depend on: the fields it does not use (30_encoding R77) and the program memory
(20_memory R52, R58); the byte laws of ADD and SUB (43_add_sub R134) and the corner cases of the logic shape. -/

namespace Sys2Proof.Machine

/-! ### Unused fields -/

/-- 40_fetch R104: an instruction's meaning reads only the fields its canonical form keeps. -/
theorem exec_canonical (i : Instr) (s : State) : exec i.canonical s = exec i s := by
  cases i <;> rfl

/-- Settles O23: both instructions do what their common canonical form does. -/
theorem unusedFieldsHaveNoEffect : Obligations.UnusedFieldsHaveNoEffect := by
  intro i j s h
  rw [← exec_canonical i s, h, exec_canonical j s]

/-! ### The program memory under EXECUTE -/

/-- The result with `f` applied to the next state, if it is one. -/
def mapNext (f : State → State) : Result → Result
  | .next t => .next (f t)
  | .fault r => .fault r
  | .refused r => .refused r

@[simp] theorem mapNext_next (f : State → State) (t : State) : mapNext f (.next t) = .next (f t) := rfl

/-- The state with another memory behind its program. -/
def State.withMemory (m : Memory) (s : State) : State := s.withProgram s.progLen m

theorem writeReg_withMemory (m : Memory) (i : Field) (v : Byte) (s : State) :
    writeReg i v (s.withMemory m) = (writeReg i v s).map (State.withMemory m) := by
  unfold writeReg
  split <;> rfl

theorem withReg_withMemory (m : Memory) (i : Field) (s : State) {go go' : Byte → Result}
    (h : ∀ v, go' v = mapNext (State.withMemory m) (go v)) :
    withReg i (s.withMemory m) go' = mapNext (State.withMemory m) (withReg i s go) := by
  have hread : readReg i (s.withMemory m) = readReg i s := rfl
  unfold withReg
  rw [hread]
  cases readReg i s with
  | none => rfl
  | some v => exact h v

theorem setReg_withMemory (m : Memory) (i : Field) (v : Byte) (s : State) {go : State → Result}
    (h : ∀ t, go (t.withMemory m) = mapNext (State.withMemory m) (go t)) :
    setReg i v (s.withMemory m) go = mapNext (State.withMemory m) (setReg i v s go) := by
  unfold setReg
  rw [writeReg_withMemory]
  cases writeReg i v s with
  | none => rfl
  | some t => exact h t

theorem withPair_withMemory (m : Memory) (x y : Field) (s : State) {go go' : Byte → Byte → Result}
    (h : ∀ a b, go' a b = mapNext (State.withMemory m) (go a b)) :
    withPair x y (s.withMemory m) go' = mapNext (State.withMemory m) (withPair x y s go) :=
  withReg_withMemory m x s fun a => withReg_withMemory m y s (h a)

theorem skipIf_withMemory (m : Memory) (c : Bool) (s : State) :
    skipIf c (s.withMemory m) = mapNext (State.withMemory m) (skipIf c s) := by
  cases c <;> rfl

theorem arithmetic_withMemory (m : Memory) (res car : Byte → Byte → Byte) (x y : Field) (s : State) :
    arithmetic res car x y (s.withMemory m) = mapNext (State.withMemory m) (arithmetic res car x y s) :=
  withPair_withMemory m x y s fun _ _ => setReg_withMemory m x _ s fun t => setReg_withMemory m _ _ t fun _ => rfl

theorem logic_withMemory (m : Memory) (f : Byte → Byte → Byte) (x y : Field) (s : State) :
    logic f x y (s.withMemory m) = mapNext (State.withMemory m) (logic f x y s) :=
  withPair_withMemory m x y s fun _ _ => setReg_withMemory m x _ s fun _ => rfl

theorem skipImm_withMemory (m : Memory) (cond : Nat → Nat → Bool) (k : Field) (nn : Nat) (s : State) :
    skipImm cond k nn (s.withMemory m) = mapNext (State.withMemory m) (skipImm cond k nn s) :=
  withReg_withMemory m k s fun _ => skipIf_withMemory m _ s

theorem skipReg_withMemory (m : Memory) (cond : Byte → Byte → Bool) (x y : Field) (s : State) :
    skipReg cond x y (s.withMemory m) = mapNext (State.withMemory m) (skipReg cond x y s) :=
  withPair_withMemory m x y s fun _ _ => skipIf_withMemory m _ s

theorem exec_load_withMemory (m : Memory) (k : Field) (nn : Nat) (s : State) :
    exec (.load k nn) (s.withMemory m) = mapNext (State.withMemory m) (exec (.load k nn) s) := by
  by_cases hn : nn ≤ 255
  · rw [exec_load_of_le hn, exec_load_of_le hn]
    exact setReg_withMemory m k _ s fun _ => rfl
  · rw [exec_load_of_lt (by omega), exec_load_of_lt (by omega)]
    rfl

/-- 20_memory R58: no instruction reads the program memory; it only hands it on. -/
theorem exec_withMemory (m : Memory) (i : Instr) (s : State) :
    exec i (s.withMemory m) = mapNext (State.withMemory m) (exec i s) := by
  cases i with
  | halt k x y => rfl
  | load k nn => exact exec_load_withMemory m k nn s
  | add k x y => exact arithmetic_withMemory m _ _ x y s
  | sub k x y => exact arithmetic_withMemory m _ _ x y s
  | or k x y => exact logic_withMemory m _ x y s
  | and k x y => exact logic_withMemory m _ x y s
  | xor k x y => exact logic_withMemory m _ x y s
  | skipEqImm k nn => exact skipImm_withMemory m (fun a n => decide (a = n)) k nn s
  | skipNeqImm k nn => exact skipImm_withMemory m (fun a n => decide (a ≠ n)) k nn s
  | skipEqReg k x y => exact skipReg_withMemory m _ x y s
  | skipNeqReg k x y => exact skipReg_withMemory m _ x y s

theorem executeWord_withMemory (m : Memory) (w : Word) (s : State) :
    executeWord w (s.withMemory m) = mapNext (State.withMemory m) (executeWord w s) := by
  cases hdec : decode w with
  | ok i => rw [executeWord_of_decode_ok hdec, executeWord_of_decode_ok hdec, exec_withMemory]
  | error e =>
    rw [executeWord_of_decode_error hdec, executeWord_of_decode_error hdec]
    rfl

/-- Settles O22: the fetch reads the same word from both memories, and EXECUTE hands the memory on. -/
theorem onlyTheFetchedWordMatters : Obligations.OnlyTheFetchedWordMatters := by
  intro s t m h hagree
  change step (s.withMemory m) = .next (t.withMemory m)
  cases he : stepEnabled s with
  | false =>
    cases h.symm.trans (step_disabled he)
    exact step_disabled he
  | true =>
    obtain ⟨w, hL, hread, hexec⟩ := step_enabled he h
    have hread' : (s.withMemory m).prog.read (fetchIndex (s.withMemory m)) = some w := hagree.trans hread
    have hfetched : fetched (s.withMemory m) w = (fetched s w).withMemory m := rfl
    rw [step_of_read (s := s.withMemory m) he hL hread', hfetched, executeWord_withMemory, hexec, mapNext_next]

/-! ### The byte laws of ADD and SUB -/

/-- Settles O31: the sums and differences as integers, with the flag as their quotient or sign. -/
theorem integerLaws : Obligations.IntegerLaws := by
  intro a b
  have ha := a.isLt
  have hb := b.isLt
  refine ⟨toNat_addResult a b, ?_, ?_, ?_, ?_⟩
  · rw [toNat_addCarry]
    split <;> omega
  · rw [toNat_subResult]
    omega
  · rw [← BitVec.toNat_inj, toNat_subBorrow]
    split <;> simp [*]
  · rw [← BitVec.toNat_inj, toNat_subBorrow]
    split <;> simp <;> omega

/-! ### Corner cases of the logic shape -/

/-- Writing back what a register holds changes nothing. -/
theorem writeReg_of_readReg {i : Field} {v : Byte} {s : State} (h : readReg i s = some v) :
    writeReg i v s = some s := by
  unfold readReg at h
  unfold writeReg
  split at h <;> cases h <;> rfl

/-- A logic instruction whose result is `R[x]` itself changes nothing. -/
theorem logic_of_result_eq (f : Byte → Byte → Byte) {x y : Field} {s : State} {a b : Byte}
    (ha : readReg x s = some a) (hb : readReg y s = some b) (hf : f a b = a) : logic f x y s = .next s := by
  rw [logic_of_readReg f ha hb, hf, setReg, writeReg_of_readReg ha]

/-- 44_logic R142: XOR with a byte of all ones complements. -/
theorem toNat_xor_allOnes (a : Byte) : (a ^^^ 255).toNat = 255 - a.toNat := by
  have hnot : a ^^^ 255 = ~~~a := BitVec.xor_allOnes
  rw [hnot, BitVec.toNat_not]

/-- Settles O33: where the result is `R[x]` nothing changes, and elsewhere it is the named byte. -/
theorem logicCornerCases : Obligations.LogicCornerCases := by
  refine ⟨fun k x s hx => ?_, fun k x y s hx hb => ?_, fun k x y s a ha hb => ?_⟩
  · obtain ⟨a, ha⟩ := readReg_of_le hx s
    obtain ⟨t, ht, hres, hkeep⟩ := logicRule_of_logic exec_xor k x x s a a ha ha
    exact ⟨logic_of_result_eq _ ha ha BitVec.or_self, logic_of_result_eq _ ha ha BitVec.and_self,
      t, ht, hres.trans (congrArg some BitVec.xor_self), hkeep⟩
  · obtain ⟨a, ha⟩ := readReg_of_le hx s
    obtain ⟨t, ht, hres, -⟩ := logicRule_of_logic exec_and k x y s a 0 ha hb
    exact ⟨logic_of_result_eq _ ha hb BitVec.or_zero, logic_of_result_eq _ ha hb BitVec.xor_zero,
      t, ht, hres.trans (congrArg some BitVec.and_zero)⟩
  · obtain ⟨t, ht, hor, -⟩ := logicRule_of_logic exec_or k x y s a 255 ha hb
    obtain ⟨u, hu, hxor, -⟩ := logicRule_of_logic exec_xor k x y s a 255 ha hb
    exact ⟨logic_of_result_eq _ ha hb BitVec.and_allOnes, ⟨t, ht, hor.trans (congrArg some BitVec.or_allOnes)⟩,
      u, hu, regNat_eq_some_iff.2 ⟨_, hxor, toNat_xor_allOnes a⟩⟩

end Sys2Proof.Machine

/-! PROOFS. The ports (10_state R37 to R41, 60_exceptions R170): reset and the control inputs, the outputs and the
snapshot, and the state a fault leaves as the outputs show it (R176). -/

namespace Sys2Proof.Machine

/-! ### Reset and the control inputs -/

/-- Settles O37: `L` decides nothing at `pc = 0`, for both branches of the wrap read word 0. -/
theorem resetValues : Obligations.ResetValues := by
  refine ⟨fun s => ⟨rfl, rfl, rfl, rfl, rfl, rfl, rfl, ?_, rfl⟩, rfl, rfl, rfl, rfl, rfl, rfl, rfl⟩
  exact ite_self 0

theorem tick_of_rst {i : Inputs} (h : i.rst = true) (s : State) : tick i s = .next (coreReset s) := if_pos h

theorem tick_step (s : State) : tick { rst := false, step := true } s = step s := rfl

/-- Settles O38: the three cases of the inputs; in a terminal state the step request is ignored. -/
theorem controlInputs : Obligations.ControlInputs := by
  refine fun s => ⟨fun i hi => tick_of_rst hi s, tick_step s, rfl, fun h => ?_, rfl, rfl⟩
  exact (tick_step s).trans (step_disabled (stepEnabled_eq_false_iff.2 h))

/-! ### Termination outputs -/

/-- 60_exceptions R170: the five codes. -/
theorem causeCode_asTabled (latch : Option Cause) : CodeAsTabled latch (causeCode latch) := by
  rcases latch with _ | c
  · simp [CodeAsTabled, causeCode]
  · cases c <;> simp [CodeAsTabled, causeCode]

theorem outputs_halted_iff (n : Nat) (s : State) : (outputs n s).halted = true ↔ s.run = .halted := decide_eq_true_iff

theorem outputs_faultValid_iff (n : Nat) (s : State) : (outputs n s).faultValid = true ↔ s.fault ≠ none :=
  Option.isSome_iff_ne_none

/-- Settles O39: copies of the run state and the latch, of which the invariant excludes one. -/
theorem terminationOutputs : Obligations.TerminationOutputs := by
  refine ⟨fun n s => ⟨outputs_halted_iff n s, outputs_faultValid_iff n s, rfl, causeCode_asTabled s.fault⟩, ?_⟩
  rintro n s hinv ⟨hhalted, hfault⟩
  obtain ⟨hnone, -⟩ := hinv.halted ((outputs_halted_iff n s).1 hhalted)
  exact (outputs_faultValid_iff n s).1 hfault hnone

/-- Settles O41: the invariant bounds `pc` by `L + 1`, and the fetch index stays below `L`. -/
theorem pcFitsEveryLegalWidth : Obligations.PcFitsEveryLegalWidth := by
  intro s n hinv hL hwidth
  have hindex : fetchIndex s < s.progLen := fetchIndex_lt (Nat.one_le_iff_ne_zero.1 hL)
  have hpc : s.pc < 2 ^ n := hinv.pc_le.trans_lt hwidth
  have haddr : fetchIndex s < 2 ^ n := by omega
  exact ⟨Nat.mod_eq_of_lt hpc, Nat.mod_eq_of_lt haddr, hindex⟩

/-! ### Observation outputs and the snapshot -/

/-- Settles O49: the outputs are copies, and a step leaves the word it read in `ir`. -/
theorem observationOutputs : Obligations.ObservationOutputs := by
  refine ⟨fun n s => ⟨rfl, rfl, rfl, Option.isSome_iff_ne_none, fun w h => h, fun h => Nat.mod_eq_of_lt h, rfl⟩,
    fun n s => ⟨rfl, rfl, rfl, rfl, rfl⟩, fun n s w he hw => ?_, rfl, rfl, rfl⟩
  obtain ⟨t, ht, hleaves⟩ := stepLeaves_of_nextWord he hw
  exact ⟨t, ht, congrArg Option.isSome hleaves.ir_eq, hleaves.ir_eq⟩

/-- 10_state R41: an enabled step strobes the snapshot exactly when it leaves the latch clear. -/
theorem snapStrobe_of_enabled {s t : State} (he : stepEnabled s = true) (h : step s = .next t) :
    snapStrobe { rst := false, step := true } s = decide (t.fault = none) := by
  simp [snapStrobe, he, h]

/-- Settles O40: by the inputs, and for a step by whether it is enabled. -/
theorem snapshotStrobe : Obligations.SnapshotStrobe := by
  refine ⟨fun s i hi => if_pos hi, fun s w he hw => ?_, fun s he => ?_, fun s => rfl⟩
  · obtain ⟨t, ht, hfault⟩ := stepFaultsExactlyAsTabled s w he hw
    rw [snapStrobe_of_enabled he ht, hfault]
  · simp [snapStrobe, he]

/-- Settles O16: the state is FETCH's with the latch set, and the outputs are copies of it. -/
theorem faultLeavesOnlyTheLatch : Obligations.FaultLeavesOnlyTheLatch := by
  intro s t c he h hc
  obtain ⟨w, hw⟩ := exists_nextWord_of_step he h
  obtain ⟨u, hu, hleaves⟩ := stepLeaves_of_nextWord he hw
  cases h.symm.trans hu
  have hregs : KeepsRegs s t := by
    rw [eq_afterFetch_of_fault he hw h hc]
    exact ⟨rfl, rfl, rfl⟩
  have hrun : t.run = .running := hleaves.run_of_fault hc
  have hdisabled : stepEnabled t = false := stepEnabled_eq_false_iff.2 (.inr (by simp [hc]))
  have hstrobe : snapStrobe { rst := false, step := true } s = false := by
    simp [snapStrobe_of_enabled he h, hc]
  refine ⟨hregs, hleaves.pc_of_fault hc, hleaves.ir_eq.trans hw.symm, by simp [hleaves.ir_eq], hrun,
    hleaves.progLen_eq, hleaves.prog_eq, hdisabled, hstrobe, fun n => ⟨?_, ?_, ?_, ?_⟩⟩
  · exact (outputs_faultValid_iff n t).2 (by simp [hc])
  · exact congrArg causeCode hc
  · exact hc ▸ causeCode_asTabled t.fault
  · simp [outputs, hrun]

end Sys2Proof.Machine

/-! PROOFS. The text form of words and the loader (30_encoding R70, R71, R90, R91): the characters of a field, the four
characters of a word, and the chunks of a file. -/

namespace Sys2Proof.Machine

/-! ### The characters of a field -/

/-- An operand character is the decimal digit of its field. -/
theorem operandChar_eq_some_iff {c : Char} {f : Field} :
    operandChar c = some f ↔ f.toNat ≤ 9 ∧ c.toNat = 48 + f.toNat := by
  have hf := f.isLt
  simp only [operandChar, Char.reduceToNat, Option.ite_none_right_eq_some, Option.some.injEq, ← BitVec.toNat_inj,
    BitVec.toNat_ofNat]
  omega

theorem operandChar_eq_none_iff {c : Char} : operandChar c = none ↔ ¬ (48 ≤ c.toNat ∧ c.toNat ≤ 57) :=
  ite_eq_right_iff.trans (imp_congr_right fun _ => by simp)

/-- The sixteen characters, digits from 48 on and letters from 65 on. -/
theorem toNat_fieldChar (f : Field) :
    (fieldChar f).toNat = if f.toNat ≤ 9 then 48 + f.toNat else 55 + f.toNat := by
  revert f
  decide

theorem operandChar_fieldChar {f : Field} (h : Field.isDigit f = true) : operandChar (fieldChar f) = some f := by
  have hf : f.toNat ≤ 9 := isDigit_iff.1 h
  exact operandChar_eq_some_iff.2 ⟨hf, (toNat_fieldChar f).trans (if_pos hf)⟩

theorem fieldChar_of_operandChar {c : Char} {f : Field} (h : operandChar c = some f) :
    Field.isDigit f = true ∧ fieldChar f = c := by
  obtain ⟨hf, hc⟩ := operandChar_eq_some_iff.1 h
  exact ⟨isDigit_iff.2 hf, Char.toNat_inj.1 (by rw [toNat_fieldChar, if_pos hf, hc])⟩

/-- The opcode characters: a digit, an upper-case letter or, where the parameter lets it, a lower-case one. -/
theorem opcodeChar_eq_some_iff {lower : Bool} {c : Char} {f : Field} :
    opcodeChar lower c = some f ↔ c.toNat = (if f.toNat ≤ 9 then 48 + f.toNat else 55 + f.toNat) ∨
      (lower = true ∧ 10 ≤ f.toNat ∧ c.toNat = 87 + f.toNat) := by
  have hf := f.isLt
  unfold opcodeChar
  split
  · next g hg =>
    obtain ⟨hg9, hc⟩ := operandChar_eq_some_iff.1 hg
    simp only [Option.some.injEq, ← BitVec.toNat_inj]
    split <;> omega
  · next hnone =>
    rw [operandChar_eq_none_iff] at hnone
    simp only [Char.reduceToNat]
    split
    · simp only [Option.some.injEq, ← BitVec.toNat_inj, BitVec.toNat_ofNat]
      split <;> omega
    · split
      · next hlower =>
        obtain ⟨rfl, hc⟩ := hlower
        simp only [Option.some.injEq, ← BitVec.toNat_inj, BitVec.toNat_ofNat, true_and]
        split <;> omega
      · next hlower =>
        simp only [reduceCtorEq, false_iff]
        rintro (hc | ⟨hl, hc⟩)
        · split at hc <;> omega
        · exact hlower ⟨hl, by omega⟩

theorem opcodeChar_eq_none_iff {lower : Bool} {c : Char} :
    opcodeChar lower c = none ↔ ¬ (48 ≤ c.toNat ∧ c.toNat ≤ 57) ∧ ¬ (65 ≤ c.toNat ∧ c.toNat ≤ 70) ∧
      (lower = true → ¬ (97 ≤ c.toNat ∧ c.toNat ≤ 102)) := by
  unfold opcodeChar
  split
  · next g hg =>
    obtain ⟨hg9, hc⟩ := operandChar_eq_some_iff.1 hg
    simp only [reduceCtorEq, false_iff]
    omega
  · next hnone =>
    rw [operandChar_eq_none_iff] at hnone
    simp only [Char.reduceToNat]
    split
    · simp [*]
    · split <;> simp_all

theorem opcodeChar_fieldChar (lower : Bool) (f : Field) : opcodeChar lower (fieldChar f) = some f :=
  opcodeChar_eq_some_iff.2 (.inl (toNat_fieldChar f))

/-- At the loader's default each field has one opcode character, the upper-case one. -/
theorem fieldChar_of_opcodeChar {c : Char} {f : Field} (h : opcodeChar false c = some f) : fieldChar f = c := by
  rcases opcodeChar_eq_some_iff.1 h with hc | ⟨hlower, -⟩
  · exact Char.toNat_inj.1 ((toNat_fieldChar f).trans hc.symm)
  · cases hlower

/-! ### The four characters of a word -/

theorem parseWord_eq_some_iff {lower : Bool} {c0 c1 c2 c3 : Char} {w : Word} :
    parseWord lower c0 c1 c2 c3 = some w ↔ opcodeChar lower c0 = some (opOf w) ∧ operandChar c1 = some (kOf w) ∧
      operandChar c2 = some (xOf w) ∧ operandChar c3 = some (yOf w) := by
  unfold parseWord
  constructor
  · intro h
    split at h <;> cases h
    next h0 h1 h2 h3 => simp [h0, h1, h2, h3]
  · rintro ⟨h0, h1, h2, h3⟩
    simp only [h0, h1, h2, h3, mkWord_fields]

/-- 30_encoding R71: the text form of a decimal word parses to it. -/
theorem parseWord_wordText (lower : Bool) {w : Word} (hd : operandsDecimal w = true) :
    parseWord lower (fieldChar (opOf w)) (fieldChar (kOf w)) (fieldChar (xOf w)) (fieldChar (yOf w)) = some w := by
  obtain ⟨hk, hx, hy⟩ := operandsDecimal_iff.1 hd
  exact parseWord_eq_some_iff.2
    ⟨opcodeChar_fieldChar lower _, operandChar_fieldChar hk, operandChar_fieldChar hx, operandChar_fieldChar hy⟩

/-- 30_encoding R71: the places of the four fields. -/
theorem toNat_eq_fields (w : Word) :
    w.toNat = 4096 * (opOf w).toNat + 256 * (kOf w).toNat + 16 * (xOf w).toNat + (yOf w).toNat := by
  have hw := w.isLt
  simp only [opOf, kOf, xOf, yOf, BitVec.extractLsb'_toNat, Nat.shiftRight_eq_div_pow]
  omega

/-- Settles O5: each of the four characters stands for its field, and at the default no other does. -/
theorem textFormOneToOne : Obligations.TextFormOneToOne := by
  refine ⟨toNat_eq_fields, fun w hd => ⟨_, _, _, _, rfl, parseWord_wordText false hd⟩, fun c0 c1 c2 c3 w h => ?_⟩
  obtain ⟨h0, h1, h2, h3⟩ := parseWord_eq_some_iff.1 h
  obtain ⟨hk, hc1⟩ := fieldChar_of_operandChar h1
  obtain ⟨hx, hc2⟩ := fieldChar_of_operandChar h2
  obtain ⟨hy, hc3⟩ := fieldChar_of_operandChar h3
  have htext : wordText w = [c0, c1, c2, c3] := by rw [wordText, fieldChar_of_opcodeChar h0, hc1, hc2, hc3]
  exact ⟨operandsDecimal_iff.2 ⟨hk, hx, hy⟩, htext, h0, h1, h2, h3⟩

/-! ### The chunks of a file -/

/-- One chunk of a file, then the rest of it. -/
theorem parseChunks_cons (lower : Bool) (c0 c1 c2 c3 : Char) (rest : List Char) :
    parseChunks lower (c0 :: c1 :: c2 :: c3 :: rest) =
      (parseWord lower c0 c1 c2 c3).bind fun w => (parseChunks lower rest).map (w :: ·) := by
  simp only [parseChunks]
  cases parseWord lower c0 c1 c2 c3 with
  | none => rfl
  | some w => cases parseChunks lower rest <;> rfl

theorem parseChunks_wordText_append (lower : Bool) {w : Word} (hd : operandsDecimal w = true) (rest : List Char) :
    parseChunks lower (wordText w ++ rest) = (parseChunks lower rest).map (w :: ·) := by
  rw [wordText, List.cons_append, List.cons_append, List.cons_append, List.cons_append, List.nil_append,
    parseChunks_cons, parseWord_wordText lower hd, Option.bind_some]

/-- 30_encoding R90: the text forms of decimal words, chunk after chunk, parse as the words. -/
theorem parseChunks_flatMap_wordText (lower : Bool) {ws : List Word} (hd : ∀ w ∈ ws, operandsDecimal w = true) :
    parseChunks lower (ws.flatMap wordText) = some ws := by
  induction ws with
  | nil => rfl
  | cons w ws ih =>
    obtain ⟨hw, hws⟩ := List.forall_mem_cons.1 hd
    rw [List.flatMap_cons, parseChunks_wordText_append lower hw, ih hws, Option.map_some]

theorem length_flatMap_wordText (ws : List Word) : (ws.flatMap wordText).length = 4 * ws.length := by
  have hchunk : ∀ w, (wordText w).length = 4 := fun _ => rfl
  simp only [List.length_flatMap, hchunk, List.map_const', List.sum_replicate, smul_eq_mul, mul_comm]

theorem loadText_of_parseChunks {lower : Bool} {text : List Char} {ws : List Word} (hne : ws ≠ [])
    (h : parseChunks lower text = some ws) : loadText lower text = .ok ws := by
  obtain ⟨w, ws, rfl⟩ := List.exists_cons_of_ne_nil hne
  simp only [loadText, h]

/-- Settles O6: the chunks parse as the words, a launch lays them out from 0 on, and the example is evaluated. -/
theorem programFileLoads : Obligations.ProgramFileLoads := by
  refine ⟨fun lower ws hne hd => ⟨?_, length_flatMap_wordText ws⟩, read_launch, rfl⟩
  exact loadText_of_parseChunks hne (parseChunks_flatMap_wordText lower hd)

/-! ### What the loader refuses -/

/-- Character `c` may not stand at index `i` of a file: it is no opcode character at the head of a chunk, or no operand
character elsewhere in one. -/
def BadCharAt (lower : Bool) (i : Nat) (c : Char) : Prop :=
  (i % 4 ≠ 0 ∧ operandChar c = none) ∨ (i % 4 = 0 ∧ opcodeChar lower c = none)

/-- Some character of the file may not stand where it does. -/
def HasBadChar (lower : Bool) (text : List Char) : Prop := ∃ i c, text[i]? = some c ∧ BadCharAt lower i c

theorem parseWord_eq_none_iff {lower : Bool} {c0 c1 c2 c3 : Char} :
    parseWord lower c0 c1 c2 c3 = none ↔
      opcodeChar lower c0 = none ∨ operandChar c1 = none ∨ operandChar c2 = none ∨ operandChar c3 = none := by
  unfold parseWord
  split
  · next h0 h1 h2 h3 => simp [h0, h1, h2, h3]
  · next hnot =>
    simp only [true_iff]
    by_contra hsome
    simp only [not_or, Option.ne_none_iff_exists', ← ne_eq] at hsome
    obtain ⟨⟨f0, h0⟩, ⟨f1, h1⟩, ⟨f2, h2⟩, f3, h3⟩ := hsome
    exact hnot f0 f1 f2 f3 h0 h1 h2 h3

/-- A bad character stands in the first chunk or in the rest, whose indices are four less. -/
theorem hasBadChar_cons_iff {lower : Bool} {c0 c1 c2 c3 : Char} {rest : List Char} :
    HasBadChar lower (c0 :: c1 :: c2 :: c3 :: rest) ↔
      parseWord lower c0 c1 c2 c3 = none ∨ HasBadChar lower rest := by
  rw [parseWord_eq_none_iff]
  constructor
  · rintro ⟨i, c, hc, hbad⟩
    match i with
    | 0 => simp_all [BadCharAt]
    | 1 => simp_all [BadCharAt]
    | 2 => simp_all [BadCharAt]
    | 3 => simp_all [BadCharAt]
    | i + 4 => exact .inr ⟨i, c, by simpa using hc, by simpa [BadCharAt] using hbad⟩
  · rintro ((h | h | h | h) | ⟨i, c, hc, hbad⟩)
    · exact ⟨0, c0, rfl, .inr ⟨rfl, h⟩⟩
    · exact ⟨1, c1, rfl, .inl ⟨by decide, h⟩⟩
    · exact ⟨2, c2, rfl, .inl ⟨by decide, h⟩⟩
    · exact ⟨3, c3, rfl, .inl ⟨by decide, h⟩⟩
    · exact ⟨i + 4, c, by simpa using hc, by simpa [BadCharAt] using hbad⟩

/-- 30_encoding R91: a file has no words exactly when a chunk is short or a character is bad. -/
theorem parseChunks_eq_none_iff (lower : Bool) (text : List Char) :
    parseChunks lower text = none ↔ text.length % 4 ≠ 0 ∨ HasBadChar lower text := by
  match text with
  | [] => simp [parseChunks, HasBadChar]
  | [_] => simp [parseChunks]
  | [_, _] => simp [parseChunks]
  | [_, _, _] => simp [parseChunks]
  | c0 :: c1 :: c2 :: c3 :: rest =>
    have ih := parseChunks_eq_none_iff lower rest
    have hlen : (c0 :: c1 :: c2 :: c3 :: rest).length % 4 = rest.length % 4 :=
      Nat.add_mod_right rest.length 4
    rw [parseChunks_cons, hasBadChar_cons_iff, hlen, ← or_left_comm, ← ih]
    cases parseWord lower c0 c1 c2 c3 <;> simp

theorem parseChunks_eq_some_nil_iff {lower : Bool} {text : List Char} :
    parseChunks lower text = some [] ↔ text = [] := by
  match text with
  | [] => simp [parseChunks]
  | [_] => simp [parseChunks]
  | [_, _] => simp [parseChunks]
  | [_, _, _] => simp [parseChunks]
  | c0 :: c1 :: c2 :: c3 :: rest =>
    rw [parseChunks_cons]
    cases parseWord lower c0 c1 c2 c3 <;> simp

theorem loadText_eq_error_iff {lower : Bool} {text : List Char} :
    loadText lower text = .error .malformedProgramWord ↔
      text = [] ∨ text.length % 4 ≠ 0 ∨ HasBadChar lower text := by
  rw [← parseChunks_eq_none_iff, ← parseChunks_eq_some_nil_iff (lower := lower) (text := text)]
  unfold loadText
  split
  · next h => simp [h]
  · next hnot =>
    rcases hp : parseChunks lower text with _ | _ | ⟨w, ws⟩
    · simp
    · simp
    · exact absurd hp (hnot w ws)

/-- The decimal digits as a list and as a range of character codes. -/
theorem operandChar_eq_none_iff_notMem {c : Char} :
    operandChar c = none ↔ c ∉ ['0', '1', '2', '3', '4', '5', '6', '7', '8', '9'] := by
  simp only [operandChar_eq_none_iff, List.mem_cons, List.not_mem_nil, or_false, ← Char.toNat_inj, Char.reduceToNat]
  omega

/-- The opcode characters as lists and as ranges of character codes. -/
theorem opcodeChar_eq_none_iff_notMem {lower : Bool} {c : Char} : opcodeChar lower c = none ↔
    c ∉ ['0', '1', '2', '3', '4', '5', '6', '7', '8', '9', 'A', 'B', 'C', 'D', 'E', 'F'] ∧
      (lower = true → c ∉ ['a', 'b', 'c', 'd', 'e', 'f']) := by
  simp only [opcodeChar_eq_none_iff, List.mem_cons, List.not_mem_nil, or_false, ← Char.toNat_inj, Char.reduceToNat]
  cases lower with
  | false =>
    simp only [reduceCtorEq, false_imp_iff, and_true]
    omega
  | true =>
    simp only [true_imp_iff]
    omega

/-- Settles O7: the bad characters are those outside the lists of the rule. -/
theorem loaderRefusesExactly : Obligations.LoaderRefusesExactly := by
  intro lower text
  simp only [loadText_eq_error_iff, HasBadChar, BadCharAt, operandChar_eq_none_iff_notMem,
    opcodeChar_eq_none_iff_notMem]

end Sys2Proof.Machine

/-! PROOFS. The assembler (30_encoding R92): how a line is cut into mnemonic and operands, the numbers of the operands,
and the round trip of an instruction's line. -/

namespace Sys2Proof.Machine

/-! ### Cutting a line -/

theorem splitFirst_append {sep : Char} {front : List Char} (h : sep ∉ front) (back : List Char) :
    splitFirst sep (front ++ sep :: back) = (front, back) := by
  induction front with
  | nil => simp [splitFirst]
  | cons c cs ih =>
    obtain ⟨hc, hcs⟩ : sep ≠ c ∧ sep ∉ cs := by simpa using h
    simp [splitFirst, ih hcs, Ne.symm hc]

theorem splitAll_of_notMem {sep : Char} {cs : List Char} (h : sep ∉ cs) : splitAll sep cs = [cs] := by
  induction cs with
  | nil => rfl
  | cons c cs ih =>
    obtain ⟨hc, hcs⟩ : sep ≠ c ∧ sep ∉ cs := by simpa using h
    simp [splitAll, ih hcs, Ne.symm hc]

theorem splitAll_append {sep : Char} {front : List Char} (h : sep ∉ front) (back : List Char) :
    splitAll sep (front ++ sep :: back) = front :: splitAll sep back := by
  induction front with
  | nil => simp [splitAll]
  | cons c cs ih =>
    obtain ⟨hc, hcs⟩ : sep ≠ c ∧ sep ∉ cs := by simpa using h
    simp [splitAll, ih hcs, Ne.symm hc]

/-- A line whose mnemonic has no space is the instruction of its mnemonic and its operands. -/
theorem assembleLine_append {mnemonic operands : List Char} {ops : List Nat} (hm : ' ' ∉ mnemonic)
    (hops : operandValues operands = some ops) :
    assembleLine (mnemonic ++ ' ' :: operands) = asmInstr mnemonic ops := by
  simp only [assembleLine, splitFirst_append hm, hops]

/-! ### The numbers of a line -/

/-- The characters are the decimal digits of `n`: no separator stands among them, and they read as `n`. -/
structure IsNumeral (n : Nat) (ds : List Char) : Prop where
  ne_nil : ds ≠ []
  space_notMem : ' ' ∉ ds
  comma_notMem : ',' ∉ ds
  value : digitsValue 0 ds = some n

theorem fieldChar_ne_space (f : Field) : ' ' ≠ fieldChar f := by
  revert f
  decide

theorem fieldChar_ne_comma (f : Field) : ',' ≠ fieldChar f := by
  revert f
  decide

/-- A digit is the numeral of its value. -/
theorem isNumeral_digit {f : Field} (h : Field.isDigit f = true) : IsNumeral f.toNat [fieldChar f] where
  ne_nil := List.cons_ne_nil _ _
  space_notMem := by simpa using fieldChar_ne_space f
  comma_notMem := by simpa using fieldChar_ne_comma f
  value := by simp [digitsValue, operandChar_fieldChar h]

/-- The characters of an immediate are its numeral, in one digit or two. -/
theorem isNumeral_immChars {nn : Nat} (h : nn ≤ 99) : IsNumeral nn (immChars nn) := by
  have hunits := unitsDigit_isDigit nn
  unfold immChars Config.maxDigit
  split
  · next h9 =>
    have hvalue : (unitsDigit nn).toNat = nn := by
      simp only [unitsDigit, BitVec.toNat_ofNat]
      omega
    simpa only [hvalue] using isNumeral_digit hunits
  · constructor
    case ne_nil => exact List.cons_ne_nil _ _
    case space_notMem => simp [fieldChar_ne_space]
    case comma_notMem => simp [fieldChar_ne_comma]
    case value =>
      have hvalue : 10 * (tensDigit nn).toNat + (unitsDigit nn).toNat = nn := immediate_digits h
      simp [digitsValue, operandChar_fieldChar (tensDigit_isDigit h), operandChar_fieldChar hunits, hvalue]

namespace IsNumeral

variable {m n : Nat} {ds es : List Char}

theorem filter_space (h : IsNumeral n ds) : ds.filter (fun c => decide (c ≠ ' ')) = ds :=
  List.filter_eq_self.2 fun c hc => decide_eq_true fun (hspace : c = ' ') => h.space_notMem (hspace ▸ hc)

theorem operandValue_eq (h : IsNumeral n ds) : operandValue ds = some n := by
  unfold operandValue
  rw [h.filter_space]
  split
  · next hnil => exact absurd rfl h.ne_nil
  · exact h.value

/-- A leading space is dropped (log 16). -/
theorem operandValue_space_cons (h : IsNumeral n ds) : operandValue (' ' :: ds) = some n := by
  rw [← h.operandValue_eq]
  simp [operandValue]

/-- Two numerals, a comma and a space between them, are two operands. -/
theorem operandValues_pair (hm : IsNumeral m ds) (hn : IsNumeral n es) :
    operandValues (ds ++ ',' :: ' ' :: es) = some [m, n] := by
  have hcomma : ',' ∉ ' ' :: es := by simpa using hn.comma_notMem
  have hnot : ¬ (ds ++ ',' :: ' ' :: es).all (fun c => decide (c = ' ')) = true := by simp
  rw [operandValues, if_neg hnot, splitAll_append hm.comma_notMem, splitAll_of_notMem hcomma]
  simp [hm.operandValue_eq, hn.operandValue_space_cons]

end IsNumeral

/-! ### Operands to instructions -/

theorem asmReg_toNat {f : Field} (h : Field.isDigit f = true) : asmReg f.toNat = some f := by
  have hf : f.toNat ≤ Config.maxDigit := isDigit_iff.1 h
  rw [asmReg, if_pos hf, BitVec.ofNat_toNat, BitVec.setWidth_eq]

theorem asmImm_of_wfImm (mk : Field → Nat → Instr) {k : Field} {nn : Nat} (h : Instr.wfImm k nn = true) :
    asmImm mk [k.toNat, nn] = some (mk k nn) := by
  obtain ⟨hk, hn⟩ := wfImm_iff.1 h
  have himm : nn ≤ Config.immMax := hn
  rw [asmImm, if_pos himm, asmReg_toNat hk, Option.map_some]

theorem asmPair_of_wfFields (mk : Field → Field → Field → Instr) {k x y : Field} (h : Instr.wfFields k x y = true) :
    asmPair mk [x.toNat, y.toNat] = some (mk 0 x y) := by
  obtain ⟨-, hx, hy⟩ := wfFields_iff.1 h
  simp only [asmPair, asmReg_toNat hx, asmReg_toNat hy]

/-- The line of a format KI instruction whose mnemonic the assembler reads as `mk`. -/
theorem assembleLine_immLine {mnemonic : List Char} {mk : Field → Nat → Instr} {k : Field} {nn : Nat}
    (hm : ' ' ∉ mnemonic) (hmk : ∀ ops, asmInstr mnemonic ops = asmImm mk ops) (hwf : Instr.wfImm k nn = true) :
    assembleLine (mnemonic ++ immLine k nn) = some (mk k nn) := by
  obtain ⟨hk, hn⟩ := wfImm_iff.1 hwf
  have hops := (isNumeral_digit hk).operandValues_pair (isNumeral_immChars hn)
  exact (assembleLine_append hm hops).trans ((hmk _).trans (asmImm_of_wfImm mk hwf))

/-- The line of a format XY instruction whose mnemonic the assembler reads as `mk`: the unused field is 0. -/
theorem assembleLine_pairLine {mnemonic : List Char} {mk : Field → Field → Field → Instr} {k x y : Field}
    (hm : ' ' ∉ mnemonic) (hmk : ∀ ops, asmInstr mnemonic ops = asmPair mk ops)
    (hwf : Instr.wfFields k x y = true) : assembleLine (mnemonic ++ pairLine x y) = some (mk 0 x y) := by
  obtain ⟨-, hx, hy⟩ := wfFields_iff.1 hwf
  have hops := (isNumeral_digit hx).operandValues_pair (isNumeral_digit hy)
  exact (assembleLine_append hm hops).trans ((hmk _).trans (asmPair_of_wfFields mk hwf))

theorem space_notMem_mnemonicChars (i : Instr) : ' ' ∉ mnemonicChars i := by
  cases i <;> simp [mnemonicChars]

/-- 30_encoding R92: the line of a well-formed instruction assembles to it, with 0 in the unused fields. -/
theorem assembleLine_asmLine {i : Instr} (hwf : i.wf = true) : assembleLine (asmLine i) = some i.canonical := by
  cases i with
  | halt k x y => rfl
  | load k nn => exact assembleLine_immLine (space_notMem_mnemonicChars _) (fun _ => rfl) hwf
  | add k x y => exact assembleLine_pairLine (space_notMem_mnemonicChars _) (fun _ => rfl) hwf
  | sub k x y => exact assembleLine_pairLine (space_notMem_mnemonicChars _) (fun _ => rfl) hwf
  | or k x y => exact assembleLine_pairLine (space_notMem_mnemonicChars _) (fun _ => rfl) hwf
  | and k x y => exact assembleLine_pairLine (space_notMem_mnemonicChars _) (fun _ => rfl) hwf
  | xor k x y => exact assembleLine_pairLine (space_notMem_mnemonicChars _) (fun _ => rfl) hwf
  | skipEqImm k nn => exact assembleLine_immLine (space_notMem_mnemonicChars _) (fun _ => rfl) hwf
  | skipNeqImm k nn => exact assembleLine_immLine (space_notMem_mnemonicChars _) (fun _ => rfl) hwf
  | skipEqReg k x y => exact assembleLine_pairLine (space_notMem_mnemonicChars _) (fun _ => rfl) hwf
  | skipNeqReg k x y => exact assembleLine_pairLine (space_notMem_mnemonicChars _) (fun _ => rfl) hwf

/-- The line of a well-formed instruction stands for its canonical word. -/
theorem assemblesTo_asmLine {i : Instr} (hwf : i.wf = true) : AssemblesTo (asmLine i) (encode i.canonical) := by
  rw [AssemblesTo, assembleLine_asmLine hwf, Option.map_some]

/-- Settles O8: the round trip, of which the line of each mnemonic is a case; the source's spelling without the space
after the comma is evaluated. -/
theorem assemblerRoundTrip : Obligations.AssemblerRoundTrip :=
  ⟨fun _ => assembleLine_asmLine,
    assemblesTo_asmLine (i := .halt 0 0 0) rfl, assemblesTo_asmLine (i := .load 1 7) rfl,
    assemblesTo_asmLine (i := .add 0 0 1) rfl, assemblesTo_asmLine (i := .sub 0 0 1) rfl,
    assemblesTo_asmLine (i := .or 0 0 1) rfl, assemblesTo_asmLine (i := .and 0 0 1) rfl,
    assemblesTo_asmLine (i := .xor 0 0 1) rfl, assemblesTo_asmLine (i := .skipEqImm 0 7) rfl,
    assemblesTo_asmLine (i := .skipNeqImm 0 12) rfl, assemblesTo_asmLine (i := .skipEqReg 0 0 1) rfl,
    assemblesTo_asmLine (i := .skipNeqReg 0 0 1) rfl, rfl, rfl⟩

end Sys2Proof.Machine
